-- ==== Sys2Proof/Word.lean ====
section
/-! DEFINITION. The widths of the block's values (00_scope.md R9, R10): all values are unsigned, bit 0 is the least
significant bit. -/

namespace Sys2Proof

/-- A table entry, a stream element, an input byte or a symbol byte: 8 bits. -/
abbrev Byte := BitVec 8

/-- A command word or a read-port word: 32 bits (R9, W_CMD; 20_memory.md R67). -/
abbrev Word := BitVec 32

/-- The number one symbol stands for: 5 bits (R15). -/
abbrev Value := BitVec 5

/-- The immediate of a length command: 24 bits (R9, W_IMM). -/
abbrev Length := BitVec 24

end Sys2Proof
end

