-- ==== Sys2Proof/Syntax.lean ====
section
/-! DEFINITION. The commands of the block: one constructor per row of spec/opcode_table.json (30_encoding.md R84), with
the operands of R82. An operand's type has the operand's width (R83), so every term stands for exactly one legal
word. `RawCommand` is any 32-bit word cut into the fields of R81, legal or not. -/

namespace Sys2Proof

/-- The encode order (10_state.md R24; 20_memory.md R63, R64). -/
inductive Order where
  | normal
  | inverse
deriving DecidableEq, Repr

/-- The built-in alphabets (40_alphabet.md R100). -/
inductive Preset where
  | zbase32
  | rfc4648
  | bech32
deriving DecidableEq, Repr

/-- The fields of a command word (R81): opcode, sub-function, immediate. -/
structure RawCommand where
  opc : BitVec 4
  sub : BitVec 4
  imm : BitVec 24
deriving DecidableEq, Repr

/-- The commands. -/
inductive Instr where
  /-- ALPHA_BEGIN: start loading a custom alphabet of the given order (40_alphabet.md R103). -/
  | alphaBegin (o : Order)
  /-- ALPHA_BYTE: append one byte of the specification string (R104). -/
  | alphaByte (d : Byte)
  /-- ALPHA_COMMIT: validate the staged string and install it (R105). -/
  | alphaCommit
  /-- ALPHA_PRESET zbase32 (R109). -/
  | alphaPresetZbase32
  /-- ALPHA_PRESET rfc4648 (R109). -/
  | alphaPresetRfc4648
  /-- ALPHA_PRESET bech32 (R109). -/
  | alphaPresetBech32
  /-- ENC_START: open an encoder session (42_encoder.md R140). -/
  | encStart
  /-- ENC_BYTE: take one input byte (R141). -/
  | encByte (d : Byte)
  /-- ENC_FINISH: flush the trailing partial group and close the session (R150). -/
  | encFinish
  /-- DEC_START: open a decoder session (43_decoder.md R170). -/
  | decStart
  /-- DEC_SYM: consume one symbol byte (R171). -/
  | decSym (d : Byte)
  /-- DEC_FINISH: flush and close the session (R180). -/
  | decFinish
  /-- LEN_ENC: the source's `encoded_length` (41_length.md R131). -/
  | lenEnc (n : Length)
  /-- LEN_DEC: the source's `decoded_length_upper_bound` (R132). -/
  | lenDec (m : Length)
  /-- CLR_ERR: clear the command-error record (44_control.md R200). -/
  | clrErr
deriving DecidableEq, Repr

end Sys2Proof
end

