-- ==== Sys2Proof/Machine/Operands.lean ====
section
/-! DEFINITION. The operand forms (30_encoding.md R81, R82, R83): the fields of a command word and how each operand is
cut out of it, and the fields of each command. No operand is sign-extended, scaled or shifted. -/

namespace Sys2Proof

/-- The OPC field, bits [31:28] (R81). -/
def opcField (w : Word) : BitVec 4 := w.extractLsb' 28 4

/-- The SUB field, bits [27:24] (R81). -/
def subField (w : Word) : BitVec 4 := w.extractLsb' 24 4

/-- The IMM field, bits [23:0] (R81). -/
def immField (w : Word) : BitVec 24 := w.extractLsb' 0 24

/-- The byte operand `d = IMM[7:0]` (R83). -/
def byteOperand (w : Word) : Byte := (immField w).extractLsb' 0 8

/-- The length operand `IMM[23:0]` (R83). -/
def lengthOperand (w : Word) : Length := immField w

/-- The length operand widened to 32 bits with zeros, `zext_32` (R83). -/
def zextLength (n : Length) : Word := n.setWidth 32

/-- The order a bit stands for: 0 Normal, 1 Inverse (10_state.md R24). -/
def orderOfBit (b : Bool) : Order := if b then .inverse else .normal

/-- The order operand `o = SUB[0]` (R83). -/
def orderOperand (w : Word) : Order := orderOfBit ((subField w).getLsbD 0)

/-- Any word cut into its fields (R81). -/
def rawOfWord (w : Word) : RawCommand := ⟨opcField w, subField w, immField w⟩

/-- The word with the given fields (R81): OPC, SUB and IMM from the high end. -/
def wordOfRaw (r : RawCommand) : Word := r.opc ++ r.sub ++ r.imm

/-- The opcode of each command (R84). -/
def Instr.opc : Instr → BitVec 4
  | .alphaBegin _ => 0x1
  | .alphaByte _ => 0x2
  | .alphaCommit => 0x3
  | .alphaPresetZbase32 => 0x4
  | .alphaPresetRfc4648 => 0x4
  | .alphaPresetBech32 => 0x4
  | .encStart => 0x5
  | .encByte _ => 0x6
  | .encFinish => 0x7
  | .decStart => 0x8
  | .decSym _ => 0x9
  | .decFinish => 0xA
  | .lenEnc _ => 0xB
  | .lenDec _ => 0xC
  | .clrErr => 0xD

/-- The sub-function of each command: the order bit, the preset id, or 0 (R81, R84). -/
def Instr.sub : Instr → BitVec 4
  | .alphaBegin .normal => 0x0
  | .alphaBegin .inverse => 0x1
  | .alphaByte _ => 0x0
  | .alphaCommit => 0x0
  | .alphaPresetZbase32 => 0x0
  | .alphaPresetRfc4648 => 0x1
  | .alphaPresetBech32 => 0x2
  | .encStart => 0x0
  | .encByte _ => 0x0
  | .encFinish => 0x0
  | .decStart => 0x0
  | .decSym _ => 0x0
  | .decFinish => 0x0
  | .lenEnc _ => 0x0
  | .lenDec _ => 0x0
  | .clrErr => 0x0

/-- The immediate of each command: the byte, the length, or 0 (R81, R83). -/
def Instr.imm : Instr → BitVec 24
  | .alphaBegin _ => 0
  | .alphaByte d => d.setWidth 24
  | .alphaCommit => 0
  | .alphaPresetZbase32 => 0
  | .alphaPresetRfc4648 => 0
  | .alphaPresetBech32 => 0
  | .encStart => 0
  | .encByte d => d.setWidth 24
  | .encFinish => 0
  | .decStart => 0
  | .decSym d => d.setWidth 24
  | .decFinish => 0
  | .lenEnc n => n
  | .lenDec m => m
  | .clrErr => 0

/-- The fields of a command. -/
def Instr.raw (i : Instr) : RawCommand := ⟨i.opc, i.sub, i.imm⟩

end Sys2Proof
end

