-- ==== Sys2Proof/WellFormed.lean ====
section
/-! DEFINITION. Which commands are well formed, said field by field from the words of 30_encoding.md R81 and R85. The
decoder (Decode.lean) goes by the match and mask columns of R84 instead; that the two agree is an obligation. -/

namespace Sys2Proof

/-- OPC 0x0, 0xE and 0xF name no command (R85). -/
def RawCommand.opcOk (r : RawCommand) : Bool :=
  r.opc != 0x0 && r.opc != 0xE && r.opc != 0xF

/-- The SUB bits a row does not give as a field are 0: SUB[3:1] of ALPHA_BEGIN, all of SUB elsewhere, and
ALPHA_PRESET takes the ids 0, 1 and 2 only (R81, R83, R85). -/
def RawCommand.subOk (r : RawCommand) : Bool :=
  if r.opc = 0x1 then r.sub.extractLsb' 1 3 == 0
  else if r.opc = 0x4 then r.sub == 0 || r.sub == 1 || r.sub == 2
  else r.sub == 0

/-- The IMM bits a row does not give as a field are 0: IMM[23:8] of the byte commands, none of the length commands,
all of IMM elsewhere (R81, R85). -/
def RawCommand.immOk (r : RawCommand) : Bool :=
  if r.opc = 0x2 ∨ r.opc = 0x6 ∨ r.opc = 0x9 then r.imm.extractLsb' 8 16 == 0
  else if r.opc = 0xB ∨ r.opc = 0xC then true
  else r.imm == 0

/-- A word is legal when its three fields are (R85). -/
def RawCommand.wf (r : RawCommand) : Bool :=
  r.opcOk && r.subOk && r.immOk

/-- A command is well formed when its fields are. Every term of `Instr` is (its operands have their widths in their
types; `Laws.EncodedFields` proves it of each constructor). -/
def Instr.wf (i : Instr) : Bool := i.raw.wf

end Sys2Proof
end

