-- ==== Sys2Proof/Decode.lean ====
section
/-! DEFINITION. Decoding (30_encoding.md R84 to R87) and encoding. A command is one 32-bit word (R80); legality is decided by
the word alone (R86), and decoding depends on no state (R87). -/

namespace Sys2Proof

/-- What a word decodes to: a command, or the ILLEGAL of R86. -/
inductive Decoded where
  | instr (i : Instr)
  | illegal
deriving DecidableEq, Repr

/-- One row of the opcode map (R84): the bits that must be as `pattern` are those of `mask`; `command` assembles the
operands by R83. -/
structure OpcodeRow where
  pattern : Word
  mask : Word
  command : Word → Instr

/-- A word matches a row: `(word & mask) = match` (R84). -/
def OpcodeRow.accepts (r : OpcodeRow) (w : Word) : Bool := w &&& r.mask == r.pattern

/-- The complete opcode map, row by row as R84 lists it. -/
def opcodeMap : List OpcodeRow := [
  ⟨0x10000000, 0xFEFFFFFF, fun w => .alphaBegin (orderOperand w)⟩,
  ⟨0x20000000, 0xFFFFFF00, fun w => .alphaByte (byteOperand w)⟩,
  ⟨0x30000000, 0xFFFFFFFF, fun _ => .alphaCommit⟩,
  ⟨0x40000000, 0xFFFFFFFF, fun _ => .alphaPresetZbase32⟩,
  ⟨0x41000000, 0xFFFFFFFF, fun _ => .alphaPresetRfc4648⟩,
  ⟨0x42000000, 0xFFFFFFFF, fun _ => .alphaPresetBech32⟩,
  ⟨0x50000000, 0xFFFFFFFF, fun _ => .encStart⟩,
  ⟨0x60000000, 0xFFFFFF00, fun w => .encByte (byteOperand w)⟩,
  ⟨0x70000000, 0xFFFFFFFF, fun _ => .encFinish⟩,
  ⟨0x80000000, 0xFFFFFFFF, fun _ => .decStart⟩,
  ⟨0x90000000, 0xFFFFFF00, fun w => .decSym (byteOperand w)⟩,
  ⟨0xA0000000, 0xFFFFFFFF, fun _ => .decFinish⟩,
  ⟨0xB0000000, 0xFF000000, fun w => .lenEnc (lengthOperand w)⟩,
  ⟨0xC0000000, 0xFF000000, fun w => .lenDec (lengthOperand w)⟩,
  ⟨0xD0000000, 0xFFFFFFFF, fun _ => .clrErr⟩]

/-- The decoding procedure of R86 over the rows still to be tried. -/
def decodeRows (w : Word) : List OpcodeRow → Decoded
  | [] => .illegal
  | r :: rows => if r.accepts w then .instr (r.command w) else decodeRows w rows

/-- `decode(word)` of R86: total; a word that matches no row is ILLEGAL (R85). -/
def decode (w : Word) : Decoded := decodeRows w opcodeMap

/-- The word of a command, from the fields R84 gives its row. -/
def encode (i : Instr) : Word := wordOfRaw i.raw

/-- The word of a command as the opcode table numbers its bits: the `nbits` low bits of `w`, zeros above. A command is one
whole 32-bit word (R80) and the block has no byte order (20_memory.md R65), so no bytes are laid out. Log entry 15. -/
def tableWord (nbits w : Nat) : Word := BitVec.ofNat 32 (w % 2 ^ nbits)

/-- The host's view of the decoder: `none` where the word is ILLEGAL. -/
def decodeTableWord (nbits w : Nat) : Option Instr :=
  match decode (tableWord nbits w) with
  | .instr i => some i
  | .illegal => none

end Sys2Proof
end

