-- ==== Sys2Proof/Config.lean ====
section
/-! DEFINITION. What an implementation of the block fixes: the named parameters of 92_eei_decisions.md. No parameter is
without a value in the spec, so there is no free value here. -/

namespace Sys2Proof

/-- The two values of the parameter `P_NORMAL_TAIL` (43_decoder.md R181). -/
inductive NormalTail where
  /-- The pending bits are dropped at DEC_FINISH in Normal order. -/
  | discard
  /-- One byte is emitted when bits are pending and not all are zero. -/
  | emitIfNonzero
deriving DecidableEq, Repr

/-- `P_NORMAL_TAIL`: the spec decides DISCARD (R181, D19). DESIGN CHOICE of the spec, log entry 4. What DEC_FINISH does
under the other value is modelled too (`decFinishWith`). -/
def Config.normalTail : NormalTail := .discard

/-- A session counter: `W_CNT` bits, wrapping (10_state.md R33, R37). The parameter `W_CNT` is 32, the spec's value (R9, D22).
Log entry 5. -/
abbrev Count := BitVec 32

end Sys2Proof
end

