-- ==== Sys2Proof/Machine/Tables.lean ====
section
/-! DEFINITION. The tables of the alphabet unit (20_memory.md R60): dense, of fixed size, every index holding an entry (R61);
the preset contents (40_alphabet.md R100) and the inversion that builds REV from FWD (R101). Log entry 13 says why these are
not sparse lists of cells. -/

namespace Sys2Proof.Machine

/-- A table of `n` entries of 8 bits, entry 0 first. -/
structure Table (n : Nat) where
  cells : List Byte
  size : cells.length = n
deriving DecidableEq, Repr

/-- `MemRead(space, i, 1)` (00_scope.md R11). -/
def Table.get {n : Nat} (t : Table n) (i : Fin n) : Byte :=
  t.cells[i.val]'(t.size.symm ▸ i.isLt)

/-- `MemWrite(space, i, 1, b)` (R11). -/
def Table.set {n : Nat} (t : Table n) (i : Fin n) (b : Byte) : Table n :=
  ⟨t.cells.set i.val b, by rw [List.length_set, t.size]⟩

/-- A table with the same byte everywhere. -/
def Table.fill (n : Nat) (b : Byte) : Table n :=
  ⟨List.replicate n b, List.length_replicate⟩

/-- The reverse table's sentinel, outside 0..31 (10_state.md R23). -/
def invalidEntry : Byte := 0xFF

/-- The second loop of BuildTables (R101) for REV: `REV[S[i]] <- i` for the entries still to be written, the next one
at index `i`. -/
def invertInto (rev : Table 256) (i : Nat) : List Byte → Table 256
  | [] => rev
  | b :: rest => invertInto (rev.set b.toFin (BitVec.ofNat 8 i)) (i + 1) rest

/-- The REV that BuildTables writes for a string (R101): INVALID everywhere, then the inverse. -/
def buildRev (fwd : Table 32) : Table 256 :=
  invertInto (Table.fill 256 invalidEntry) 0 fwd.cells

/-- ZBASE32, "ybndrfg8ejkmcpqxot1uwisza345h769" (R100). -/
def zbase32Table : Table 32 := ⟨[
  0x79, 0x62, 0x6E, 0x64, 0x72, 0x66, 0x67, 0x38, 0x65, 0x6A, 0x6B, 0x6D, 0x63, 0x70, 0x71, 0x78,
  0x6F, 0x74, 0x31, 0x75, 0x77, 0x69, 0x73, 0x7A, 0x61, 0x33, 0x34, 0x35, 0x68, 0x37, 0x36, 0x39], rfl⟩

/-- RFC4648, 'A' to 'Z' then '2' to '7' (R100). -/
def rfc4648Table : Table 32 := ⟨[
  0x41, 0x42, 0x43, 0x44, 0x45, 0x46, 0x47, 0x48, 0x49, 0x4A, 0x4B, 0x4C, 0x4D, 0x4E, 0x4F, 0x50,
  0x51, 0x52, 0x53, 0x54, 0x55, 0x56, 0x57, 0x58, 0x59, 0x5A, 0x32, 0x33, 0x34, 0x35, 0x36, 0x37], rfl⟩

/-- BECH32, "qpzry9x8gf2tvdw0s3jn54khce6mua7l" (R100). -/
def bech32Table : Table 32 := ⟨[
  0x71, 0x70, 0x7A, 0x72, 0x79, 0x39, 0x78, 0x38, 0x67, 0x66, 0x32, 0x74, 0x76, 0x64, 0x77, 0x30,
  0x73, 0x33, 0x6A, 0x6E, 0x35, 0x34, 0x6B, 0x68, 0x63, 0x65, 0x36, 0x6D, 0x75, 0x61, 0x37, 0x6C], rfl⟩

/-- The read-only preset contents (R100; 20_memory.md R60). -/
def presetTable : Preset → Table 32
  | .zbase32 => zbase32Table
  | .rfc4648 => rfc4648Table
  | .bech32 => bech32Table

/-- The order of each preset: ZBASE32 Inverse, the others Normal (R100, R109). -/
def presetOrder : Preset → Order
  | .zbase32 => .inverse
  | .rfc4648 => .normal
  | .bech32 => .normal

end Sys2Proof.Machine
end

