-- ==== Sys2Proof/Machine/State.lean ====
section
/-! DEFINITION. The state of the block (10_state.md), by unit, and its reset values (R48). INVENTORY.md lists every field with
its rule. -/

namespace Sys2Proof.Machine

/-- ALPHA_SRC: which alphabet is current (R25). -/
inductive AlphaSrc where
  | zbase32
  | rfc4648
  | bech32
  | custom
deriving DecidableEq, Repr

/-- ENC_STATE (R28); the code 3 is never held. -/
inductive EncState where
  | idle
  | active
  | done
deriving DecidableEq, Repr

/-- DEC_STATE (R34). -/
inductive DecState where
  | idle
  | active
  | done
  | failed
deriving DecidableEq, Repr

/-- ALPHA_ERR.CODE (R40). -/
inductive AlphaCode where
  | none
  | invalidLength
  | unprintableSymbol
  | duplicateSymbol
deriving DecidableEq, Repr

/-- CMD_ERR.CAUSE (R41); the codes 6 and 7 are never held. -/
inductive CmdCause where
  | none
  | illegalCmd
  | seqEnc
  | seqDec
  | seqAlpha
  | busy
deriving DecidableEq, Repr

/-- The ConstructionError record ALPHA_ERR (R40). -/
structure AlphaErr where
  code : AlphaCode
  byte : Byte
  pos : BitVec 5
deriving DecidableEq, Repr

/-- The command-error record CMD_ERR (R41). -/
structure CmdErr where
  cause : CmdCause
  word : Word
deriving DecidableEq, Repr

/-- The alphabet unit: FWD (R22), REV (R23), ORDER (R24), ALPHA_SRC (R25). -/
structure AlphabetUnit where
  fwd : Table 32
  rev : Table 256
  order : Order
  src : AlphaSrc
deriving DecidableEq, Repr

/-- The staging state of a custom alphabet: STG, STG_LEN, STG_ORDER, ALPHA_LOADING (R27). -/
structure Staging where
  bytes : Table 32
  len : BitVec 6
  order : Order
  loading : Bool
deriving DecidableEq, Repr

/-- The encoder unit: ENC_STATE (R28), ENC_PHASE (R29), ENC_CARRY (R30), ENC_PEND (R31), ENC_ICNT and ENC_OCNT (R33).
ENC_PHASE is a number below 5 by type: the codes 5 to 7 are never held (R29, log entry 7). -/
structure EncoderUnit where
  state : EncState
  phase : Fin 5
  carry : BitVec 4
  pend : Bool
  icnt : Count
  ocnt : Count
deriving DecidableEq, Repr

/-- The decoder unit: DEC_STATE (R34), DEC_ACC and DEC_NBITS (R35), DEC_ICNT and DEC_OCNT (R37), DEC_ERR_OFF and
DEC_ERR_BYTE (R38). -/
structure DecoderUnit where
  state : DecState
  acc : BitVec 12
  nbits : BitVec 4
  icnt : Count
  ocnt : Count
  errOff : BitVec 32
  errByte : Byte
deriving DecidableEq, Repr

/-- What the host can present to the block (70_reset_and_hazards.md R252) that changes its state: a word on the command
port (30_encoding.md R80) or a pulse of the reset input (R240). Reads change nothing and are `regRead`. -/
inductive PortInput where
  | command (w : Word)
  | reset
deriving DecidableEq, Repr

/-- The whole state. `encOut` and `decOut` are the elements appended to ENC_OUT and DEC_OUT since reset, in emission order
(R42). `port` is the model's own: the inputs the host has presented and the block has not yet taken, oldest first (log
entry 1). -/
structure State where
  alpha : AlphabetUnit
  staging : Staging
  enc : EncoderUnit
  dec : DecoderUnit
  lenOut : BitVec 32
  alphaErr : AlphaErr
  cmdErr : CmdErr
  encOut : List Byte
  decOut : List Byte
  port : List PortInput
deriving DecidableEq, Repr

/-- Reasons to stop: none. The block never takes a trap and completes every command (60_exceptions.md R210, R219), so no
meaning and no step can fault. Log entry 17. -/
inductive Fault
deriving DecidableEq, Repr

/-- Reasons to have no meaning. -/
inductive Refusal where
  /-- An instruction of the table that exec's arm rejects by name: raised by no arm now. Safe. -/
  | notModelled (mnemonic : String)
deriving DecidableEq, Repr

/-- The outcome of a command or a step. -/
abbrev Result := Host.Outcome State Fault Refusal

/-- The block right after reset (R48; 70_reset_and_hazards.md R240, R241): ZBASE32 in Inverse order, everything else 0,
IDLE, NONE or empty. -/
def State.reset : State where
  alpha := { fwd := presetTable .zbase32, rev := buildRev (presetTable .zbase32), order := .inverse, src := .zbase32 }
  staging := { bytes := Table.fill 32 0x00, len := 0, order := .normal, loading := false }
  enc := { state := .idle, phase := 0, carry := 0, pend := false, icnt := 0, ocnt := 0 }
  dec := { state := .idle, acc := 0, nbits := 0, icnt := 0, ocnt := 0, errOff := 0, errByte := 0 }
  lenOut := 0
  alphaErr := { code := .none, byte := 0, pos := 0 }
  cmdErr := { cause := .none, word := 0 }
  encOut := []
  decOut := []
  port := []

end Sys2Proof.Machine
end

