-- ==== Sys2Proof/Machine/Ops.lean ====
section
/-! DEFINITION. The operations every command is made of: one update per field of State, emission on the two streams, the
table lookups, installing an alphabet, validating a staged string, and the raising and clearing of the three error
records (60_exceptions.md §2). -/

namespace Sys2Proof.Machine

/-! ## One update per field -/

def State.withAlpha (s : State) (a : AlphabetUnit) : State := { s with alpha := a }
def State.withStaging (s : State) (g : Staging) : State := { s with staging := g }
def State.withEnc (s : State) (e : EncoderUnit) : State := { s with enc := e }
def State.withDec (s : State) (d : DecoderUnit) : State := { s with dec := d }
def State.withLenOut (s : State) (n : BitVec 32) : State := { s with lenOut := n }
def State.withAlphaErr (s : State) (e : AlphaErr) : State := { s with alphaErr := e }
def State.withCmdErr (s : State) (e : CmdErr) : State := { s with cmdErr := e }
def State.withPort (s : State) (p : List PortInput) : State := { s with port := p }

/-- `Emit(ENC_OUT, …)` for each symbol in turn (00_scope.md R11): appended at the end, never refused (20_memory.md R76). -/
def State.emitEnc (s : State) (symbols : List Byte) : State := { s with encOut := s.encOut ++ symbols }

/-- `Emit(DEC_OUT, …)` for each byte in turn (R11). -/
def State.emitDec (s : State) (bytes : List Byte) : State := { s with decOut := s.decOut ++ bytes }

/-! ## Table lookups -/

/-- Forward lookup `FWD[v]` (42_encoder.md R147). -/
def fwdLookup (a : AlphabetUnit) (v : Value) : Byte := a.fwd.get v.toFin

/-- Reverse lookup of a symbol byte (43_decoder.md R172): `none` when the entry is INVALID, else the 5-bit value. An entry
that is neither INVALID nor below 32 is in no reachable table (10_state.md R23); log entry 8. -/
def revLookup (a : AlphabetUnit) (d : Byte) : Option Value :=
  let e := a.rev.get d.toFin
  if e = invalidEntry then none else some (e.setWidth 5)

/-! ## Installing an alphabet -/

/-- BuildTables (40_alphabet.md R101) with the new ORDER and ALPHA_SRC. -/
def installAlphabet (fwd : Table 32) (order : Order) (src : AlphaSrc) : AlphabetUnit :=
  { fwd := fwd, rev := buildRev fwd, order := order, src := src }

/-- The ALPHA_SRC of a preset (10_state.md R25, 40_alphabet.md R109). -/
def presetSrc : Preset → AlphaSrc
  | .zbase32 => .zbase32
  | .rfc4648 => .rfc4648
  | .bech32 => .bech32

/-- The printable range (R107). -/
def printable (b : Byte) : Bool := 0x20 ≤ b.toNat && b.toNat ≤ 0x7E

/-- The checks of R106 at one position: printable first, then no earlier equal byte. -/
def checkPosition (stg : Table 32) (j : Fin 32) : Option AlphaErr :=
  if !printable (stg.get j) then some ⟨.unprintableSymbol, stg.get j, BitVec.ofFin j⟩
  else if (List.finRange 32).any fun i => i < j && stg.get i == stg.get j then
    some ⟨.duplicateSymbol, stg.get j, BitVec.ofFin j⟩
  else none

/-- `Validate(STG, STG_LEN)` (R106): the length, then the positions ascending; `none` is OK. -/
def validate (stg : Table 32) (len : BitVec 6) : Option AlphaErr :=
  if len ≠ 32 then some ⟨.invalidLength, 0, 0⟩
  else (List.finRange 32).findSome? (checkPosition stg)

/-! ## Errors: raising and clearing -/

/-- `raise CmdError(cause)` for a command word (60_exceptions.md R212): the first error is kept, and nothing else is
written in either case. -/
def raiseCmdError (cause : CmdCause) (w : Word) (s : State) : State :=
  if s.cmdErr.cause = .none then s.withCmdErr ⟨cause, w⟩ else s

/-- Clearing the command-error record (60_exceptions.md R220, 44_control.md R200). -/
def clearCmdError (s : State) : State := s.withCmdErr ⟨.none, 0⟩

/-- `raise AlphaError(code, byte, pos)` (R214). -/
def raiseAlphaError (e : AlphaErr) (s : State) : State :=
  (s.withStaging { s.staging with loading := false }).withAlphaErr e

/-- The ALPHA_ERR of a successful installation: (NONE, 0, 0). -/
def noAlphaErr : AlphaErr := ⟨.none, 0, 0⟩

/-- `raise DecodeError(offset, byte)` (R215; the writes of 43_decoder.md R173). -/
def raiseDecodeError (offset : BitVec 32) (d : Byte) (s : State) : State :=
  s.withDec { s.dec with state := .failed, errOff := offset, errByte := d }

/-- The BUSY condition (R213): a session is open on either unit. -/
def busy (s : State) : Bool := s.enc.state == .active || s.dec.state == .active

end Sys2Proof.Machine
end

