-- ==== Sys2Proof/Machine/Alphabet.lean ====
section
/-! DEFINITION. The alphabet commands (40_alphabet.md R103, R104, R105, R109). -/

namespace Sys2Proof.Machine

/-- ALPHA_BEGIN (R103). -/
def execAlphaBegin (o : Order) (s : State) : Result :=
  .next (s.withStaging { s.staging with len := 0, order := o, loading := true })

/-- The staging state after one more byte of the specification string (R104): stored below 32, only counted at 32, and
from then on nothing. -/
def stageByte (g : Staging) (d : Byte) : Staging :=
  if h : g.len.toNat < 32 then { g with bytes := g.bytes.set ⟨g.len.toNat, h⟩ d, len := g.len + 1 }
  else if g.len = 32 then { g with len := 33 }
  else g

/-- ALPHA_BYTE (R104). -/
def execAlphaByte (d : Byte) (s : State) : Result :=
  if s.staging.loading then .next (s.withStaging (stageByte s.staging d))
  else .next (raiseCmdError .seqAlpha (encode (.alphaByte d)) s)

/-- The effect of ALPHA_COMMIT once its checks have passed (R105). -/
def commitStaged (s : State) : State :=
  match validate s.staging.bytes s.staging.len with
  | none =>
    ((s.withStaging { s.staging with loading := false }).withAlpha
      (installAlphabet s.staging.bytes s.staging.order .custom)).withAlphaErr noAlphaErr
  | some e => raiseAlphaError e s

/-- ALPHA_COMMIT (R105). -/
def execAlphaCommit (s : State) : Result :=
  if !s.staging.loading then .next (raiseCmdError .seqAlpha (encode .alphaCommit) s)
  else if busy s then .next (raiseCmdError .busy (encode .alphaCommit) s)
  else .next (commitStaged s)

/-- Installing a preset, the word of the command being `w` (R109). -/
def installPreset (p : Preset) (w : Word) (s : State) : Result :=
  if busy s then .next (raiseCmdError .busy w s)
  else .next ((s.withAlpha (installAlphabet (presetTable p) (presetOrder p) (presetSrc p))).withAlphaErr noAlphaErr)

/-- ALPHA_PRESET zbase32 (R109). -/
def execAlphaPresetZbase32 (s : State) : Result := installPreset .zbase32 (encode .alphaPresetZbase32) s

/-- ALPHA_PRESET rfc4648 (R109). -/
def execAlphaPresetRfc4648 (s : State) : Result := installPreset .rfc4648 (encode .alphaPresetRfc4648) s

/-- ALPHA_PRESET bech32 (R109). -/
def execAlphaPresetBech32 (s : State) : Result := installPreset .bech32 (encode .alphaPresetBech32) s

end Sys2Proof.Machine
end

