-- ==== Sys2Proof/Machine/Control.lean ====
section
/-! DEFINITION. The control command (44_control.md R200). -/

namespace Sys2Proof.Machine

/-- CLR_ERR (R200). -/
def execClrErr (s : State) : Result := .next (clearCmdError s)

end Sys2Proof.Machine
end

