-- ==== Sys2Proof/Machine/Decoder.lean ====
section
/-! DEFINITION. The decoder commands (43_decoder.md R170, R171, R180) and the accumulator steps they use (R176, R177). -/

namespace Sys2Proof.Machine

/-- What one valid symbol does to the accumulator: the byte emitted, if any (at most one, R178), and the new pending
bits. -/
structure AccStep where
  emitted : Option Byte
  acc : BitVec 12
  nbits : BitVec 4
deriving DecidableEq, Repr

/-- The Normal-order step (R176): shift the symbol in at the low end, then emit the top 8 pending bits if there are 8. -/
def accNormal (acc : BitVec 12) (nbits : BitVec 4) (v : Value) : AccStep :=
  let a := acc.toNat <<< 5 ||| v.toNat
  let nb := nbits.toNat + 5
  if 8 ≤ nb then
    { emitted := some (BitVec.ofNat 8 (a >>> (nb - 8)))
      acc := BitVec.ofNat 12 (a % 2 ^ (nb - 8))
      nbits := BitVec.ofNat 4 (nb - 8) }
  else { emitted := none, acc := BitVec.ofNat 12 a, nbits := BitVec.ofNat 4 nb }

/-- The Inverse-order step (R177): first emit the low 8 bits if 8 are pending, then put the symbol above what is left. -/
def accInverse (acc : BitVec 12) (nbits : BitVec 4) (v : Value) : AccStep :=
  let a := acc.toNat
  let nb := nbits.toNat
  if 8 ≤ nb then
    { emitted := some (BitVec.ofNat 8 a)
      acc := BitVec.ofNat 12 (a >>> 8 ||| v.toNat <<< (nb - 8))
      nbits := BitVec.ofNat 4 (nb - 8 + 5) }
  else { emitted := none, acc := BitVec.ofNat 12 (a ||| v.toNat <<< nb), nbits := BitVec.ofNat 4 (nb + 5) }

/-- The step of the current order (R171). -/
def accStep : Order → BitVec 12 → BitVec 4 → Value → AccStep
  | .normal => accNormal
  | .inverse => accInverse

/-- A counter after an optional emission. -/
def countEmitted (n : Count) (emitted : Option Byte) : Count :=
  if emitted.isSome then n + 1 else n

/-- DEC_START (R170). -/
def execDecStart (s : State) : Result :=
  .next (s.withDec { state := .active, acc := 0, nbits := 0, icnt := 0, ocnt := 0, errOff := 0, errByte := 0 })

/-- The effect of a valid symbol of value v in an open session (R171, R176, R177). -/
def takeValue (v : Value) (s : State) : State :=
  let r := accStep s.alpha.order s.dec.acc s.dec.nbits v
  (s.emitDec r.emitted.toList).withDec
    { s.dec with
      acc := r.acc
      nbits := r.nbits
      icnt := s.dec.icnt + 1
      ocnt := countEmitted s.dec.ocnt r.emitted }

/-- The effect of a symbol byte in an open session: the lookup comes first, and an invalid symbol emits nothing (R171,
R173). -/
def takeSymbol (d : Byte) (s : State) : State :=
  match revLookup s.alpha d with
  | none => raiseDecodeError s.dec.icnt d s
  | some v => takeValue v s

/-- DEC_SYM (R171); FAILED is terminal until DEC_START (R174). -/
def execDecSym (d : Byte) (s : State) : Result :=
  match s.dec.state with
  | .failed => .next s
  | .active => .next (takeSymbol d s)
  | .idle => .next (raiseCmdError .seqDec (encode (.decSym d)) s)
  | .done => .next (raiseCmdError .seqDec (encode (.decSym d)) s)

/-- The byte DEC_FINISH emits: in Inverse order the low 8 pending bits whenever bits are pending (R180, R182), in Normal
order what `P_NORMAL_TAIL` says (R181). -/
def tailByte (tail : NormalTail) (o : Order) (d : DecoderUnit) : Option Byte :=
  match o, tail with
  | .inverse, _ => if d.nbits = 0 then none else some (d.acc.setWidth 8)
  | .normal, .discard => none
  | .normal, .emitIfNonzero => if d.nbits = 0 ∨ d.acc = 0 then none else some (d.acc.setWidth 8)

/-- The effect of DEC_FINISH in an open session under a value of `P_NORMAL_TAIL` (R180). -/
def closeDecoder (tail : NormalTail) (s : State) : State :=
  let e := tailByte tail s.alpha.order s.dec
  (s.emitDec e.toList).withDec
    { s.dec with state := .done, acc := 0, nbits := 0, ocnt := countEmitted s.dec.ocnt e }

/-- DEC_FINISH under a value of `P_NORMAL_TAIL` (R180, R174). -/
def decFinishWith (tail : NormalTail) (s : State) : Result :=
  match s.dec.state with
  | .failed => .next s
  | .active => .next (closeDecoder tail s)
  | .idle => .next (raiseCmdError .seqDec (encode .decFinish) s)
  | .done => .next (raiseCmdError .seqDec (encode .decFinish) s)

/-- DEC_FINISH (R180), with the spec's value of `P_NORMAL_TAIL` (R181, log entry 4). -/
def execDecFinish (s : State) : Result := decFinishWith Config.normalTail s

end Sys2Proof.Machine
end

