-- ==== Sys2Proof/Machine/Flags.lean ====
section
/-! DEFINITION. The fields that play the role of flags (10_state.md R47) and how they are computed: the codes of the enumerated
registers, the phase and its carry width, ENC_PEND, CMD_ERR_V, and the STATUS word (R44). -/

namespace Sys2Proof.Machine

/-- ORDER and STG_ORDER as bits: 0 Normal, 1 Inverse (R24). -/
def orderCode : Order → BitVec 1
  | .normal => 0
  | .inverse => 1

/-- ALPHA_SRC as bits (R25). -/
def AlphaSrc.code : AlphaSrc → BitVec 2
  | .zbase32 => 0
  | .rfc4648 => 1
  | .bech32 => 2
  | .custom => 3

/-- ENC_STATE as bits (R28). -/
def EncState.code : EncState → BitVec 2
  | .idle => 0
  | .active => 1
  | .done => 2

/-- DEC_STATE as bits (R34). -/
def DecState.code : DecState → BitVec 2
  | .idle => 0
  | .active => 1
  | .done => 2
  | .failed => 3

/-- ALPHA_ERR.CODE as bits (R40). -/
def AlphaCode.code : AlphaCode → BitVec 2
  | .none => 0
  | .invalidLength => 1
  | .unprintableSymbol => 2
  | .duplicateSymbol => 3

/-- CMD_ERR.CAUSE as bits (R41). -/
def CmdCause.code : CmdCause → BitVec 3
  | .none => 0
  | .illegalCmd => 1
  | .seqEnc => 2
  | .seqDec => 3
  | .seqAlpha => 4
  | .busy => 5

/-- A flag as one bit. -/
def flagBit (b : Bool) : BitVec 1 := BitVec.ofBool b

/-- `K(p)`, the carry bits held when the byte of phase p arrives (42_encoder.md R142). -/
def carryBits : Fin 5 → Nat
  | 0 => 0
  | 1 => 3
  | 2 => 1
  | 3 => 4
  | 4 => 2

/-- `(p + 1) mod 5` (R141). -/
def nextPhase (p : Fin 5) : Fin 5 := p + 1

/-- ENC_PEND on entering a phase: set when the phase is not 0 (10_state.md R31, 42_encoder.md R141). -/
def pendingAt (p : Fin 5) : Bool := p != 0

/-- CMD_ERR_V: 1 when CMD_ERR.CAUSE is not NONE (R44). -/
def cmdErrValid (s : State) : Bool := s.cmdErr.cause != .none

/-- A field put into a register word with its least significant bit at bit `lo`; the bits no field is put at read 0
(R43). -/
def place {n : Nat} (lo : Nat) (x : BitVec n) : Word := x.setWidth 32 <<< lo

/-- STATUS (R44): each field at its low bit; bits [31:20] read 0. -/
def statusWord (s : State) : Word :=
  place 0 s.enc.state.code ||| place 2 s.dec.state.code ||| place 4 (flagBit s.staging.loading)
    ||| place 5 (orderCode s.staging.order) ||| place 6 (orderCode s.alpha.order) ||| place 7 s.alpha.src.code
    ||| place 9 (BitVec.ofNat 3 s.enc.phase.val) ||| place 12 (flagBit s.enc.pend) ||| place 13 s.dec.nbits
    ||| place 17 (flagBit (cmdErrValid s)) ||| place 18 s.alphaErr.code.code

end Sys2Proof.Machine
end

