-- ==== Sys2Proof/Machine/Encoder.lean ====
section
/-! DEFINITION. The encoder commands (42_encoder.md R140, R141, R150) and the sub-case arithmetic they use (R142, R145,
R146). -/

namespace Sys2Proof.Machine

/-- `T`, the bits available when the byte of phase p has arrived (R142). -/
def availableBits (p : Fin 5) : Nat := carryBits p + 8

/-- `S`, the symbols emitted by the byte of phase p (R142). -/
def symbolCount (p : Fin 5) : Nat := availableBits p / 5

/-- `K'`, the bits carried forward by the byte of phase p (R142). -/
def carryOutBits (p : Fin 5) : Nat := availableBits p - 5 * symbolCount p

/-- What one input byte yields: the values in emission order (R148) and the new carry. -/
structure Peeled where
  values : List Value
  carry : BitVec 4
deriving DecidableEq, Repr

/-- The Normal-order sub-case (R145, row by row R143): the carry above the byte, groups from the high end. The carry is
read as the K(p) bits it holds (10_state.md R30, log entry 9). -/
def peelNormal (p : Fin 5) (c : BitVec 4) (d : Byte) : Peeled :=
  let x := (c.toNat % 2 ^ carryBits p) <<< 8 ||| d.toNat
  { values := (List.range (symbolCount p)).map fun j => BitVec.ofNat 5 (x >>> (availableBits p - 5 - 5 * j))
    carry := BitVec.ofNat 4 (x % 2 ^ carryOutBits p) }

/-- The Inverse-order sub-case (R146, row by row R144): the byte above the carry, groups from the low end. -/
def peelInverse (p : Fin 5) (c : BitVec 4) (d : Byte) : Peeled :=
  let x := c.toNat % 2 ^ carryBits p ||| d.toNat <<< carryBits p
  { values := (List.range (symbolCount p)).map fun j => BitVec.ofNat 5 (x >>> (5 * j))
    carry := BitVec.ofNat 4 (x >>> (5 * symbolCount p)) }

/-- The sub-case of the current order (R141). -/
def peel : Order → Fin 5 → BitVec 4 → Byte → Peeled
  | .normal => peelNormal
  | .inverse => peelInverse

/-- ENC_START (R140). -/
def execEncStart (s : State) : Result :=
  .next (s.withEnc { state := .active, phase := 0, carry := 0, pend := false, icnt := 0, ocnt := 0 })

/-- The encoder registers after taking one byte, in phase p with the given peeling (R141). -/
def EncoderUnit.afterByte (e : EncoderUnit) (r : Peeled) : EncoderUnit :=
  { state := e.state
    phase := nextPhase e.phase
    carry := r.carry
    pend := pendingAt (nextPhase e.phase)
    icnt := e.icnt + 1
    ocnt := e.ocnt + BitVec.ofNat 32 r.values.length }

/-- The effect of ENC_BYTE in an open session (R141). -/
def takeByte (d : Byte) (s : State) : State :=
  let r := peel s.alpha.order s.enc.phase s.enc.carry d
  (s.emitEnc (r.values.map (fwdLookup s.alpha))).withEnc (s.enc.afterByte r)

/-- ENC_BYTE (R141). -/
def execEncByte (d : Byte) (s : State) : Result :=
  if s.enc.state = .active then .next (takeByte d s)
  else .next (raiseCmdError .seqEnc (encode (.encByte d)) s)

/-- The value of the final symbol (R150, table R151): Normal pads below the carry, Inverse above it. -/
def finalValue (o : Order) (p : Fin 5) (c : BitVec 4) : Value :=
  match o with
  | .normal => BitVec.ofNat 5 (c.toNat <<< (5 - carryBits p))
  | .inverse => c.setWidth 5

/-- The encoder registers after the session is closed (R150); ENC_PHASE is kept. -/
def EncoderUnit.closed (e : EncoderUnit) : EncoderUnit :=
  { e with
    state := .done
    carry := 0
    pend := false
    ocnt := if e.pend then e.ocnt + 1 else e.ocnt }

/-- The symbols ENC_FINISH emits: one when a carry is present, even of value 0, else none (R150). -/
def finalSymbols (s : State) : List Byte :=
  if s.enc.pend then [fwdLookup s.alpha (finalValue s.alpha.order s.enc.phase s.enc.carry)] else []

/-- ENC_FINISH (R150). -/
def execEncFinish (s : State) : Result :=
  if s.enc.state = .active then .next ((s.emitEnc (finalSymbols s)).withEnc s.enc.closed)
  else .next (raiseCmdError .seqEnc (encode .encFinish) s)

end Sys2Proof.Machine
end

