-- ==== Sys2Proof/Machine/Length.lean ====
section
/-! DEFINITION. The length commands (41_length.md R130, R131, R132): exact on unbounded numbers, then held in 32 bits. -/

namespace Sys2Proof.Machine

/-- `encoded_length(n)` (R131). -/
def encodedLength (n : Nat) : Nat := n / 5 * 8 + n % 5 * 2 + 1

/-- `decoded_length_upper_bound(m)` (R132). -/
def decodedLengthUpperBound (m : Nat) : Nat := m / 8 * 5 + m % 8

/-- LEN_ENC (R131). -/
def execLenEnc (n : Length) (s : State) : Result :=
  .next (s.withLenOut (BitVec.ofNat 32 (encodedLength (zextLength n).toNat)))

/-- LEN_DEC (R132). -/
def execLenDec (m : Length) (s : State) : Result :=
  .next (s.withLenOut (BitVec.ofNat 32 (decodedLengthUpperBound (zextLength m).toNat)))

end Sys2Proof.Machine
end

