-- ==== Sys2Proof/Machine/Dispatch.lean ====
section
/-! DEFINITION. exec: one arm per command, each a call of its meaning. -/

namespace Sys2Proof.Machine

def exec (i : Instr) (s : State) : Host.Outcome State Fault Refusal :=
  match i with
  | .alphaBegin o => Sys2Proof.Machine.execAlphaBegin o s
  | .alphaByte d => Sys2Proof.Machine.execAlphaByte d s
  | .alphaCommit => Sys2Proof.Machine.execAlphaCommit s
  | .alphaPresetZbase32 => Sys2Proof.Machine.execAlphaPresetZbase32 s
  | .alphaPresetRfc4648 => Sys2Proof.Machine.execAlphaPresetRfc4648 s
  | .alphaPresetBech32 => Sys2Proof.Machine.execAlphaPresetBech32 s
  | .encStart => Sys2Proof.Machine.execEncStart s
  | .encByte d => Sys2Proof.Machine.execEncByte d s
  | .encFinish => Sys2Proof.Machine.execEncFinish s
  | .decStart => Sys2Proof.Machine.execDecStart s
  | .decSym d => Sys2Proof.Machine.execDecSym d s
  | .decFinish => Sys2Proof.Machine.execDecFinish s
  | .lenEnc n => Sys2Proof.Machine.execLenEnc n s
  | .lenDec m => Sys2Proof.Machine.execLenDec m s
  | .clrErr => Sys2Proof.Machine.execClrErr s

end Sys2Proof.Machine
end

