-- ==== Sys2Proof/Machine/Port.lean ====
section
/-! DEFINITION. The two inputs that change the block (70_reset_and_hazards.md R252): a word on the command port (30_encoding.md
R80, R86) and the reset input (R240). Log entries 1, 2, 3. -/

namespace Sys2Proof.Machine

/-- The block accepts one word: it decodes it, performs the command, or raises ILLEGAL_CMD and does nothing else (R85,
R86). -/
def acceptWord (w : Word) (s : State) : Result :=
  match decode w with
  | .instr i => exec i s
  | .illegal => .next (raiseCmdError .illegalCmd w s)

/-- The reset input (R240): every element takes its reset value. The inputs the host presents after the pulse are still to
come. -/
def applyReset (s : State) : Result := .next (State.reset.withPort s.port)

/-- The block takes one input. -/
def acceptInput : PortInput → State → Result
  | .command w => acceptWord w
  | .reset => applyReset

/-- The block takes the oldest input that waits; with none it is idle and holds its state (60_exceptions.md R228). -/
def takeInput (s : State) : Result :=
  match s.port with
  | [] => .next s
  | x :: rest => acceptInput x (s.withPort rest)

/-- The host presents inputs after those that wait already (20_memory.md R70). -/
def State.present (s : State) (inputs : List PortInput) : State := s.withPort (s.port ++ inputs)

/-- The host presents a word that the block takes next. -/
def presentFirst (s : State) (w : Word) : State := s.withPort (.command w :: s.port)

end Sys2Proof.Machine
end

