-- ==== Sys2Proof/Machine/ReadPort.lean ====
section
/-! DEFINITION. The read port (44_control.md R201; 10_state.md R43, R44, R45): a 12-bit index to a 32-bit value. It is a
function of the state and writes nothing, so it is no step. Log entry 12. -/

namespace Sys2Proof.Machine

/-- The ENC_CARRY word (R45): the carry at [3:0], K(ENC_PHASE) at [6:4], ENC_PEND at [7]. -/
def encCarryWord (s : State) : Word :=
  place 0 s.enc.carry ||| place 4 (BitVec.ofNat 3 (carryBits s.enc.phase)) ||| place 7 (flagBit s.enc.pend)

/-- The DEC_ACC word (R45): DEC_ACC at [11:0], DEC_NBITS at [19:16]. -/
def decAccWord (s : State) : Word := place 0 s.dec.acc ||| place 16 s.dec.nbits

/-- The ALPHA_ERR word (R45): CODE at [1:0], BYTE at [15:8], POS at [20:16]. -/
def alphaErrWord (s : State) : Word :=
  place 0 s.alphaErr.code.code ||| place 8 s.alphaErr.byte ||| place 16 s.alphaErr.pos

/-- The registers below the table windows (R43); an unlisted index reads 0. -/
def singleRegister (s : State) : Nat → Word
  | 0x000 => statusWord s
  | 0x001 => s.enc.icnt
  | 0x002 => s.enc.ocnt
  | 0x003 => encCarryWord s
  | 0x004 => s.dec.icnt
  | 0x005 => s.dec.ocnt
  | 0x006 => decAccWord s
  | 0x007 => s.dec.errOff
  | 0x008 => s.dec.errByte.setWidth 32
  | 0x009 => s.lenOut
  | 0x00A => alphaErrWord s
  | 0x00B => s.cmdErr.cause.code.setWidth 32
  | 0x00C => s.cmdErr.word
  | 0x00D => s.staging.len.setWidth 32
  | _ => 0

/-- Entry k of a table's window in the read map, bits [7:0]; 0 past the table's end (R43). -/
def tableWindow {n : Nat} (t : Table n) (k : Nat) : Word :=
  if h : k < n then (t.get ⟨k, h⟩).setWidth 32 else 0

/-- `RegRead(idx)` (R201) by the map of R43: single registers, then FWD from 0x100, REV from 0x200, STG from 0x300. -/
def regRead (s : State) (idx : BitVec 12) : Word :=
  if idx.toNat < 0x100 then singleRegister s idx.toNat
  else if idx.toNat < 0x200 then tableWindow s.alpha.fwd (idx.toNat - 0x100)
  else if idx.toNat < 0x300 then tableWindow s.alpha.rev (idx.toNat - 0x200)
  else tableWindow s.staging.bytes (idx.toNat - 0x300)

end Sys2Proof.Machine
end

