-- ==== Sys2Proof/Safety.lean ====
section
/-! DEFINITION. The terms claims are stated in: the parts of State and what a command may leave unchanged, the table of
command errors (60_exceptions.md R213), the invariants of the block at every command boundary, and the sessions the host
drives (30_encoding.md R91, R92). -/

namespace Sys2Proof.Machine

/-! ## Frames -/

/-- The parts of State. -/
inductive Part where
  | alpha
  | staging
  | enc
  | dec
  | lenOut
  | alphaErr
  | cmdErr
  | encOut
  | decOut
  | port
deriving DecidableEq, Repr

/-- A part is the same in two states. -/
def Part.same (s t : State) : Part → Prop
  | .alpha => t.alpha = s.alpha
  | .staging => t.staging = s.staging
  | .enc => t.enc = s.enc
  | .dec => t.dec = s.dec
  | .lenOut => t.lenOut = s.lenOut
  | .alphaErr => t.alphaErr = s.alphaErr
  | .cmdErr => t.cmdErr = s.cmdErr
  | .encOut => t.encOut = s.encOut
  | .decOut => t.decOut = s.decOut
  | .port => t.port = s.port

/-- Every part of State outside `parts` is unchanged: every register, every table entry, both streams, both error
records. -/
def keepsAllBut (parts : List Part) (s t : State) : Prop := ∀ p, p ∉ parts → Part.same s t p

/-- What raising a command error leaves in CMD_ERR: the first error is kept (R212). -/
def recorded (s : State) (cause : CmdCause) (w : Word) : CmdErr :=
  if s.cmdErr.cause = .none then ⟨cause, w⟩ else s.cmdErr

/-- A session is open on either unit. -/
abbrev sessionOpen (s : State) : Prop := s.enc.state = .active ∨ s.dec.state = .active

/-- The conditions under which each command raises CmdError, in the order checked: the table of R213. A word that matches no
row is not a command and is not here. -/
def cmdErrorOf (i : Instr) (s : State) : Option CmdCause :=
  match i with
  | .alphaBegin _ => none
  | .alphaByte _ => if s.staging.loading = false then some .seqAlpha else none
  | .alphaCommit =>
    if s.staging.loading = false then some .seqAlpha else if sessionOpen s then some .busy else none
  | .alphaPresetZbase32 => if sessionOpen s then some .busy else none
  | .alphaPresetRfc4648 => if sessionOpen s then some .busy else none
  | .alphaPresetBech32 => if sessionOpen s then some .busy else none
  | .encStart => none
  | .encByte _ => if s.enc.state ≠ .active then some .seqEnc else none
  | .encFinish => if s.enc.state ≠ .active then some .seqEnc else none
  | .decStart => none
  | .decSym _ =>
    if s.dec.state = .failed then none else if s.dec.state ≠ .active then some .seqDec else none
  | .decFinish =>
    if s.dec.state = .failed then none else if s.dec.state ≠ .active then some .seqDec else none
  | .lenEnc _ => none
  | .lenDec _ => none
  | .clrErr => none

/-- The encoder's commands. -/
def isEncoderCommand : Instr → Bool
  | .encStart => true
  | .encByte _ => true
  | .encFinish => true
  | .alphaBegin _ => false
  | .alphaByte _ => false
  | .alphaCommit => false
  | .alphaPresetZbase32 => false
  | .alphaPresetRfc4648 => false
  | .alphaPresetBech32 => false
  | .decStart => false
  | .decSym _ => false
  | .decFinish => false
  | .lenEnc _ => false
  | .lenDec _ => false
  | .clrErr => false

/-- The decoder's commands. -/
def isDecoderCommand : Instr → Bool
  | .decStart => true
  | .decSym _ => true
  | .decFinish => true
  | .alphaBegin _ => false
  | .alphaByte _ => false
  | .alphaCommit => false
  | .alphaPresetZbase32 => false
  | .alphaPresetRfc4648 => false
  | .alphaPresetBech32 => false
  | .encStart => false
  | .encByte _ => false
  | .encFinish => false
  | .lenEnc _ => false
  | .lenDec _ => false
  | .clrErr => false

/-- The command that installs a preset. -/
def presetCommand : Preset → Instr
  | .zbase32 => .alphaPresetZbase32
  | .rfc4648 => .alphaPresetRfc4648
  | .bech32 => .alphaPresetBech32

/-- The word of that command (40_alphabet.md R109). -/
def presetWord : Preset → Word
  | .zbase32 => 0x40000000
  | .rfc4648 => 0x41000000
  | .bech32 => 0x42000000

/-! ## The sub-case tables of the encoder, slice by slice -/

/-- The table of 42_encoder.md R143: the values in order and the new carry, in Normal order. -/
def normalRow (p : Fin 5) (c : BitVec 4) (d : Byte) : List Value × BitVec 4 :=
  match p with
  | 0 => let x : BitVec 8 := d
    ([x.extractLsb 7 3], (x.extractLsb 2 0).setWidth 4)
  | 1 => let x : BitVec 11 := c.extractLsb 2 0 ++ d
    ([x.extractLsb 10 6, x.extractLsb 5 1], (x.extractLsb 0 0).setWidth 4)
  | 2 => let x : BitVec 9 := c.extractLsb 0 0 ++ d
    ([x.extractLsb 8 4], x.extractLsb 3 0)
  | 3 => let x : BitVec 12 := c.extractLsb 3 0 ++ d
    ([x.extractLsb 11 7, x.extractLsb 6 2], (x.extractLsb 1 0).setWidth 4)
  | 4 => let x : BitVec 10 := c.extractLsb 1 0 ++ d
    ([x.extractLsb 9 5, x.extractLsb 4 0], 0)

/-- The table of R144: the same in Inverse order, `c | d << K` with c read as its K(p) bits. -/
def inverseRow (p : Fin 5) (c : BitVec 4) (d : Byte) : List Value × BitVec 4 :=
  match p with
  | 0 => let x : BitVec 8 := d
    ([x.extractLsb 4 0], (x.extractLsb 7 5).setWidth 4)
  | 1 => let x : BitVec 11 := (c.extractLsb 2 0).setWidth 11 ||| d.setWidth 11 <<< 3
    ([x.extractLsb 4 0, x.extractLsb 9 5], (x.extractLsb 10 10).setWidth 4)
  | 2 => let x : BitVec 9 := (c.extractLsb 0 0).setWidth 9 ||| d.setWidth 9 <<< 1
    ([x.extractLsb 4 0], x.extractLsb 8 5)
  | 3 => let x : BitVec 12 := (c.extractLsb 3 0).setWidth 12 ||| d.setWidth 12 <<< 4
    ([x.extractLsb 4 0, x.extractLsb 9 5], (x.extractLsb 11 10).setWidth 4)
  | 4 => let x : BitVec 10 := (c.extractLsb 1 0).setWidth 10 ||| d.setWidth 10 <<< 2
    ([x.extractLsb 4 0, x.extractLsb 9 5], 0)

/-- The row of the current order (R141). -/
def subcaseRow : Order → Fin 5 → BitVec 4 → Byte → List Value × BitVec 4
  | .normal => normalRow
  | .inverse => inverseRow

/-- The table of R151: the value of the final symbol by phase, `none` where nothing is emitted. -/
def finalRow (o : Order) (p : Fin 5) (c : BitVec 4) : Option Value :=
  match o, p with
  | _, 0 => none
  | .normal, 1 => some ((c.extractLsb 2 0).setWidth 5 <<< 2)
  | .normal, 2 => some ((c.extractLsb 0 0).setWidth 5 <<< 4)
  | .normal, 3 => some ((c.extractLsb 3 0).setWidth 5 <<< 1)
  | .normal, 4 => some ((c.extractLsb 1 0).setWidth 5 <<< 3)
  | .inverse, 1 => some ((c.extractLsb 2 0).setWidth 5)
  | .inverse, 2 => some ((c.extractLsb 0 0).setWidth 5)
  | .inverse, 3 => some ((c.extractLsb 3 0).setWidth 5)
  | .inverse, 4 => some ((c.extractLsb 1 0).setWidth 5)

/-! ## Alphabets -/

/-- A 32-byte string that may be an alphabet: every byte printable, all distinct (40_alphabet.md R107, R108;
10_state.md R22). -/
structure LegalAlphabet (t : Table 32) : Prop where
  printable : ∀ i, 0x20 ≤ (t.get i).toNat ∧ (t.get i).toNat ≤ 0x7E
  distinct : ∀ i j, t.get i = t.get j → i = j

/-- FWD and REV are inverse of each other (10_state.md R26): `REV[FWD[i]] = i`, and INVALID at every other byte. -/
structure InverseTables (a : AlphabetUnit) : Prop where
  symbol : ∀ i : Fin 32, a.rev.get (a.fwd.get i).toFin = BitVec.ofNat 8 i.val
  other : ∀ b : Byte, (∀ i, a.fwd.get i ≠ b) → a.rev.get b.toFin = 0xFF

/-- ALPHA_SRC names the alphabet that is installed (10_state.md R25). -/
def sourceFits (a : AlphabetUnit) : Prop :=
  match a.src with
  | .zbase32 => a.fwd = presetTable .zbase32 ∧ a.order = .inverse
  | .rfc4648 => a.fwd = presetTable .rfc4648 ∧ a.order = .normal
  | .bech32 => a.fwd = presetTable .bech32 ∧ a.order = .normal
  | .custom => True

/-! ## Invariants at every command boundary -/

/-- The alphabet unit (10_state.md R22, R25, R26). -/
structure AlphabetInv (a : AlphabetUnit) : Prop where
  legal : LegalAlphabet a.fwd
  inverse : InverseTables a
  source : sourceFits a

/-- The encoder (10_state.md R30, R31, R32): the tag says whether a carry is present, and the carry has K bits; outside a
session there is no carry. -/
structure EncoderInv (e : EncoderUnit) : Prop where
  pending : e.state = .active → (e.pend = true ↔ e.phase ≠ 0)
  width : e.state = .active → e.carry.toNat < 2 ^ carryBits e.phase
  closed : e.state ≠ .active → e.carry = 0 ∧ e.pend = false

/-- The decoder (10_state.md R35, R36, R38): the accumulator holds the pending bits, at most 12 and in Normal order at most
7; outside a session none, unless it failed; the error record is zero unless it failed. -/
structure DecoderInv (order : Order) (d : DecoderUnit) : Prop where
  width : d.acc.toNat < 2 ^ d.nbits.toNat
  most : d.nbits.toNat ≤ 12
  normal : d.state = .active → order = .normal → d.nbits.toNat ≤ 7
  closed : d.state = .idle ∨ d.state = .done → d.nbits = 0
  record : d.state ≠ .failed → d.errOff = 0 ∧ d.errByte = 0

/-- The construction-error record (10_state.md R40, 40_alphabet.md R106): byte and position are 0 when there is no error or the
length is wrong; an unprintable byte is outside 0x20..0x7E, a duplicate inside. -/
def alphaErrFits (e : AlphaErr) : Prop :=
  match e.code with
  | .none => e.byte = 0 ∧ e.pos = 0
  | .invalidLength => e.byte = 0 ∧ e.pos = 0
  | .unprintableSymbol => e.byte.toNat < 0x20 ∨ 0x7E < e.byte.toNat
  | .duplicateSymbol => 0x20 ≤ e.byte.toNat ∧ e.byte.toNat ≤ 0x7E

/-- The command-error record (10_state.md R41; the "raised by" column of 60_exceptions.md R211): the word recorded is one that
can raise the cause. -/
def cmdErrFits (e : CmdErr) : Prop :=
  match e.cause with
  | .none => e.word = 0
  | .illegalCmd => decode e.word = .illegal
  | .seqEnc => (∃ d, decode e.word = .instr (.encByte d)) ∨ decode e.word = .instr .encFinish
  | .seqDec => (∃ d, decode e.word = .instr (.decSym d)) ∨ decode e.word = .instr .decFinish
  | .seqAlpha => (∃ d, decode e.word = .instr (.alphaByte d)) ∨ decode e.word = .instr .alphaCommit
  | .busy =>
    decode e.word = .instr .alphaCommit ∨ decode e.word = .instr .alphaPresetZbase32
      ∨ decode e.word = .instr .alphaPresetRfc4648 ∨ decode e.word = .instr .alphaPresetBech32

/-- The invariant of the block at every command boundary. -/
structure BlockInv (s : State) : Prop where
  alphabet : AlphabetInv s.alpha
  stagedLength : s.staging.len.toNat ≤ 33
  encoder : EncoderInv s.enc
  decoder : DecoderInv s.alpha.order s.dec
  alphaRecord : alphaErrFits s.alphaErr
  cmdRecord : cmdErrFits s.cmdErr

/-! ## Sessions the host drives -/

/-- The command port's input for a command. -/
def sends (i : Instr) : PortInput := .command (encode i)

/-- ENCODE (30_encoding.md R91). -/
def encodeSession (bytes : List Byte) : List PortInput :=
  sends .encStart :: (bytes.map fun b => sends (.encByte b)) ++ [sends .encFinish]

/-- The commands of DECODE before its last (R92). -/
def decodeSymbols (symbols : List Byte) : List PortInput :=
  sends .decStart :: symbols.map fun d => sends (.decSym d)

/-- DECODE (R92). -/
def decodeSession (symbols : List Byte) : List PortInput :=
  decodeSymbols symbols ++ [sends .decFinish]

/-- The number of symbols of an encoder session of n bytes, `⌈8n/5⌉` (42_encoder.md R152). -/
def encodedCount (n : Nat) : Nat := (8 * n + 4) / 5

/-- The number of bytes of a decoder session of m valid symbols that ends in DONE (43_decoder.md R183; Normal order with
P_NORMAL_TAIL = DISCARD). -/
def decodedCount : Order → Nat → Nat
  | .normal, m => 5 * m / 8
  | .inverse, m => (5 * m + 3) / 8

/-- The input read as a little-endian integer, `N` of 42_encoder.md R154. -/
def littleEndian : List Byte → Nat
  | [] => 0
  | b :: rest => b.toNat + 2 ^ 8 * littleEndian rest

/-- The symbols of an Inverse-order session as R154 gives them: `FWD[⌊N / 2^(5j)⌋ mod 32]` for each j. -/
def inverseSymbols (a : AlphabetUnit) (bytes : List Byte) : List Byte :=
  (List.range (encodedCount bytes.length)).map fun j =>
    fwdLookup a (BitVec.ofNat 5 (littleEndian bytes / 2 ^ (5 * j) % 32))

/-- The bits `B` of 42_encoder.md R153: each byte from bit 7 down to bit 0. -/
def bitString (bytes : List Byte) : List Bool :=
  bytes.flatMap fun b => (List.range 8).map fun t => b.getLsbD (7 - t)

/-- Bit k of R153's `B` as a number, the zero bits that follow the input included. -/
def bitAt (bits : List Bool) (k : Nat) : Nat := if bits.getD k false then 1 else 0

/-- The symbols of a Normal-order session as R153 gives them: `FWD[Σ_{t=0..4} B[5j+t]·2^(4−t)]` for each j. -/
def normalSymbols (a : AlphabetUnit) (bytes : List Byte) : List Byte :=
  let bits := bitString bytes
  (List.range (encodedCount bytes.length)).map fun j =>
    fwdLookup a (BitVec.ofNat 5 (bitAt bits (5 * j) * 2 ^ 4 + bitAt bits (5 * j + 1) * 2 ^ 3
      + bitAt bits (5 * j + 2) * 2 ^ 2 + bitAt bits (5 * j + 3) * 2 + bitAt bits (5 * j + 4)))

/-- A byte is a symbol of the current alphabet (43_decoder.md R172): its entry of REV is a value. -/
def isSymbol (a : AlphabetUnit) (d : Byte) : Prop := ∃ v : Value, a.rev.get d.toFin = v.setWidth 8

end Sys2Proof.Machine
end

