-- ==== Sys2Proof/Certificates/Slice0/Obligations.lean ====
section
/-! DEFINITION. The statements for the provers. Each docstring names the rule of spec/ it formalises; OBLIGATIONS.json quotes
the rule's words. A statement about a command says, in this order: that exec answers a next state, what the rule gives its
fields, and which parts of State keep their value (its frame). -/

open Sys2Proof Sys2Proof.Machine

/-! ## Encoding -/

/-- 30_encoding.md §3: decoding the word of a command gives the command back, every operand at every value. -/
def Obligations.DecodeOfEncodedCommand : Prop :=
  ∀ i : Instr, i.wf = true ∧ decode (encode i) = .instr i

/-- 30_encoding.md §3: the other direction; a legal word is the only word of its command. -/
def Obligations.EncodeOfDecodedWord : Prop :=
  ∀ (w : Word) (i : Instr), decode w = .instr i → encode i = w

/-- R84: the complete map with its masks, matches and operands; no word matches two rows; a word that matches none is
illegal (R86). -/
def Obligations.OpcodeMapIsComplete : Prop :=
  (∀ w : Word,
    (w &&& 0xFEFFFFFF = 0x10000000 → decode w = .instr (.alphaBegin (if w.getLsbD 24 then .inverse else .normal)))
    ∧ (w &&& 0xFFFFFF00 = 0x20000000 → decode w = .instr (.alphaByte (w.extractLsb 7 0)))
    ∧ (w &&& 0xFFFFFFFF = 0x30000000 → decode w = .instr .alphaCommit)
    ∧ (w &&& 0xFFFFFFFF = 0x40000000 → decode w = .instr .alphaPresetZbase32)
    ∧ (w &&& 0xFFFFFFFF = 0x41000000 → decode w = .instr .alphaPresetRfc4648)
    ∧ (w &&& 0xFFFFFFFF = 0x42000000 → decode w = .instr .alphaPresetBech32)
    ∧ (w &&& 0xFFFFFFFF = 0x50000000 → decode w = .instr .encStart)
    ∧ (w &&& 0xFFFFFF00 = 0x60000000 → decode w = .instr (.encByte (w.extractLsb 7 0)))
    ∧ (w &&& 0xFFFFFFFF = 0x70000000 → decode w = .instr .encFinish)
    ∧ (w &&& 0xFFFFFFFF = 0x80000000 → decode w = .instr .decStart)
    ∧ (w &&& 0xFFFFFF00 = 0x90000000 → decode w = .instr (.decSym (w.extractLsb 7 0)))
    ∧ (w &&& 0xFFFFFFFF = 0xA0000000 → decode w = .instr .decFinish)
    ∧ (w &&& 0xFF000000 = 0xB0000000 → decode w = .instr (.lenEnc (w.extractLsb 23 0)))
    ∧ (w &&& 0xFF000000 = 0xC0000000 → decode w = .instr (.lenDec (w.extractLsb 23 0)))
    ∧ (w &&& 0xFFFFFFFF = 0xD0000000 → decode w = .instr .clrErr)
    ∧ ((∀ r ∈ opcodeMap, w &&& r.mask ≠ r.pattern) → decode w = .illegal))
  ∧ opcodeMap.map (fun r => (r.pattern, r.mask)) =
    [(0x10000000, 0xFEFFFFFF), (0x20000000, 0xFFFFFF00), (0x30000000, 0xFFFFFFFF), (0x40000000, 0xFFFFFFFF),
     (0x41000000, 0xFFFFFFFF), (0x42000000, 0xFFFFFFFF), (0x50000000, 0xFFFFFFFF), (0x60000000, 0xFFFFFF00),
     (0x70000000, 0xFFFFFFFF), (0x80000000, 0xFFFFFFFF), (0x90000000, 0xFFFFFF00), (0xA0000000, 0xFFFFFFFF),
     (0xB0000000, 0xFF000000), (0xC0000000, 0xFF000000), (0xD0000000, 0xFFFFFFFF)]
  ∧ opcodeMap.Pairwise (fun r q => ∀ w : Word, ¬ (w &&& r.mask = r.pattern ∧ w &&& q.mask = q.pattern))

/-- R85: the words that match no row are exactly those whose fields are in the list of R85, and the
well-formedness check of WellFormed.lean is the same line. -/
def Obligations.IllegalWordsByField : Prop :=
  ∀ w : Word, ((rawOfWord w).wf = true ↔ decode w ≠ .illegal) ∧ (decode w = .illegal ↔
    (w.extractLsb 31 28 = (0x0 : BitVec 4) ∨ w.extractLsb 31 28 = (0xE : BitVec 4) ∨ w.extractLsb 31 28 = (0xF : BitVec 4))
    ∨ (w.extractLsb 31 28 = (0x1 : BitVec 4) ∧ w.extractLsb 27 25 ≠ (0 : BitVec 3))
    ∨ (w.extractLsb 31 28 = (0x4 : BitVec 4) ∧ 3 ≤ (w.extractLsb 27 24).toNat)
    ∨ (w.extractLsb 31 28 ≠ (0x1 : BitVec 4) ∧ w.extractLsb 31 28 ≠ (0x4 : BitVec 4) ∧ w.extractLsb 27 24 ≠ (0 : BitVec 4))
    ∨ ((w.extractLsb 31 28 = (0x2 : BitVec 4) ∨ w.extractLsb 31 28 = (0x6 : BitVec 4) ∨ w.extractLsb 31 28 = (0x9 : BitVec 4))
        ∧ w.extractLsb 23 8 ≠ (0 : BitVec 16))
    ∨ (w.extractLsb 31 28 ∉ [(0x2 : BitVec 4), 0x6, 0x9, 0xB, 0xC] ∧ w.extractLsb 23 0 ≠ (0 : BitVec 24)))

/-- R89, and one word of every family written from R84. -/
def Obligations.ExampleWordsDecode : Prop :=
  decode 0x11000000 = .instr (.alphaBegin .inverse) ∧ decode 0x60000068 = .instr (.encByte 0x68)
  ∧ decode 0x90000065 = .instr (.decSym 0x65) ∧ decode 0xB0000005 = .instr (.lenEnc 5)
  ∧ encode (.alphaBegin .inverse) = 0x11000000 ∧ encode (.encByte 0x68) = 0x60000068
  ∧ encode (.decSym 0x65) = 0x90000065 ∧ encode (.lenEnc 5) = 0xB0000005
  ∧ decode 0x42000000 = .instr .alphaPresetBech32 ∧ decode 0xD0000000 = .instr .clrErr
  ∧ decode 0x43000000 = .illegal ∧ decode 0x60000100 = .illegal ∧ decode 0x00000000 = .illegal

/-! ## The step -/

/-- 20_memory.md §4, 00_scope.md R12: a step takes the oldest command and is exec of it, the word gone from the port. -/
def Obligations.StepRunsDecodedCommand : Prop :=
  ∀ (s : State) (w : Word) (rest : List PortInput) (i : Instr),
    s.port = .command w :: rest → decode w = .instr i → step s = exec i (s.withPort rest)

/-- 60_exceptions.md §5 (R228): with no command to accept the block holds its state. -/
def Obligations.IdleBlockHoldsState : Prop :=
  ∀ s : State, s.port = [] → step s = .next s

/-- 60_exceptions.md §1 (R210): the block never takes a trap; every step answers a next state. -/
def Obligations.StepNeverStops : Prop :=
  ∀ s : State, ∃ t, step s = .next t

/-- R48: the value of every element after reset. -/
def Obligations.ResetGivesEveryElementItsValue : Prop :=
  State.reset.alpha.fwd = presetTable .zbase32 ∧ InverseTables State.reset.alpha
  ∧ State.reset.alpha.order = .inverse ∧ State.reset.alpha.src = .zbase32
  ∧ (∀ i, State.reset.staging.bytes.get i = 0x00) ∧ State.reset.staging.len = 0
  ∧ State.reset.staging.order = .normal ∧ State.reset.staging.loading = false
  ∧ State.reset.enc = { state := .idle, phase := 0, carry := 0, pend := false, icnt := 0, ocnt := 0 }
  ∧ State.reset.dec = { state := .idle, acc := 0, nbits := 0, icnt := 0, ocnt := 0, errOff := 0, errByte := 0 }
  ∧ State.reset.lenOut = 0 ∧ State.reset.alphaErr = ⟨.none, 0, 0⟩ ∧ State.reset.cmdErr = ⟨.none, 0⟩
  ∧ State.reset.encOut = [] ∧ State.reset.decOut = []

/-- 70_reset_and_hazards.md §1: a pulse of the reset input leaves every element at its reset value, from any state. That the
inputs presented after the pulse still wait is the model's (log entry 3). -/
def Obligations.ResetInputGivesResetState : Prop :=
  ∀ (s : State) (rest : List PortInput), s.port = .reset :: rest → step s = .next (State.reset.withPort rest)

/-! ## The alphabet unit -/

/-- R100: the preset contents are the listed symbols (as ASCII), each preset a legal alphabet, with
its order and its id. -/
def Obligations.PresetContents : Prop :=
  (presetTable .zbase32).cells = "ybndrfg8ejkmcpqxot1uwisza345h769".toList.map (fun c => BitVec.ofNat 8 c.toNat)
  ∧ (presetTable .rfc4648).cells = "ABCDEFGHIJKLMNOPQRSTUVWXYZ234567".toList.map (fun c => BitVec.ofNat 8 c.toNat)
  ∧ (presetTable .bech32).cells = "qpzry9x8gf2tvdw0s3jn54khce6mua7l".toList.map (fun c => BitVec.ofNat 8 c.toNat)
  ∧ presetOrder .zbase32 = .inverse ∧ presetOrder .rfc4648 = .normal ∧ presetOrder .bech32 = .normal
  ∧ (presetCommand .zbase32).sub = 0 ∧ (presetCommand .rfc4648).sub = 1 ∧ (presetCommand .bech32).sub = 2
  ∧ ∀ p, LegalAlphabet (presetTable p)

/-- R101: BuildTables leaves tables that are inverse of each other, and REV has exactly 32 entries that are not INVALID. -/
def Obligations.BuildTablesInverts : Prop :=
  ∀ (t : Table 32) (o : Order) (src : AlphaSrc), LegalAlphabet t →
    (installAlphabet t o src).fwd = t ∧ InverseTables (installAlphabet t o src)
    ∧ (installAlphabet t o src).rev.cells.countP (fun e => e != 0xFF) = 32

/-- R103: ALPHA_BEGIN. -/
def Obligations.AlphaBeginStartsLoad : Prop :=
  ∀ (o : Order) (s : State), ∃ t, exec (.alphaBegin o) s = .next t
    ∧ t.staging.len = 0 ∧ t.staging.order = o ∧ t.staging.loading = true ∧ t.staging.bytes = s.staging.bytes
    ∧ keepsAllBut [.staging] s t

/-- R104: ALPHA_BYTE, each of its four cases. -/
def Obligations.AlphaByteAppends : Prop :=
  ∀ (d : Byte) (s : State),
    (s.staging.loading = false → ∃ t, exec (.alphaByte d) s = .next t
      ∧ t.cmdErr = recorded s .seqAlpha (0x20000000 ||| d.setWidth 32) ∧ keepsAllBut [.cmdErr] s t)
    ∧ (s.staging.loading = true → ∃ t, exec (.alphaByte d) s = .next t
      ∧ (s.staging.len.toNat < 32 → t.staging.len.toNat = s.staging.len.toNat + 1
          ∧ ∀ i : Fin 32, t.staging.bytes.get i = if i.val = s.staging.len.toNat then d else s.staging.bytes.get i)
      ∧ (s.staging.len.toNat = 32 → t.staging.len.toNat = 33 ∧ t.staging.bytes = s.staging.bytes)
      ∧ (32 < s.staging.len.toNat → t.staging = s.staging)
      ∧ t.staging.order = s.staging.order ∧ t.staging.loading = true ∧ keepsAllBut [.staging] s t)

/-- R105: a commit of a valid string installs it. -/
def Obligations.CommitOfValidStringInstalls : Prop :=
  ∀ s : State, s.staging.loading = true → ¬ sessionOpen s → s.staging.len = 32 → LegalAlphabet s.staging.bytes →
    ∃ t, exec .alphaCommit s = .next t
      ∧ t.alpha.fwd = s.staging.bytes ∧ InverseTables t.alpha ∧ t.alpha.order = s.staging.order ∧ t.alpha.src = .custom
      ∧ t.alphaErr = ⟨.none, 0, 0⟩ ∧ t.staging = { s.staging with loading := false }
      ∧ keepsAllBut [.alpha, .staging, .alphaErr] s t

/-- R106, R214: which error a commit reports, and that a failed commit leaves the current alphabet in place. -/
def Obligations.CommitReportsFirstError : Prop :=
  ∀ s : State, s.staging.loading = true → ¬ sessionOpen s →
    ∃ t, exec .alphaCommit s = .next t ∧ t.staging = { s.staging with loading := false }
      ∧ (s.staging.len ≠ 32 → t.alphaErr = ⟨.invalidLength, 0x00, 0⟩)
      ∧ (s.staging.len = 32 → ∀ j : Fin 32,
          (∀ i, i < j → (0x20 ≤ (s.staging.bytes.get i).toNat ∧ (s.staging.bytes.get i).toNat ≤ 0x7E)
            ∧ ∀ k, k < i → s.staging.bytes.get k ≠ s.staging.bytes.get i) →
          ((s.staging.bytes.get j).toNat < 0x20 ∨ 0x7E < (s.staging.bytes.get j).toNat →
            t.alphaErr = ⟨.unprintableSymbol, s.staging.bytes.get j, BitVec.ofNat 5 j.val⟩)
          ∧ ((0x20 ≤ (s.staging.bytes.get j).toNat ∧ (s.staging.bytes.get j).toNat ≤ 0x7E) →
            (∃ i, i < j ∧ s.staging.bytes.get i = s.staging.bytes.get j) →
            t.alphaErr = ⟨.duplicateSymbol, s.staging.bytes.get j, BitVec.ofNat 5 j.val⟩))
      ∧ (s.staging.len = 32 → LegalAlphabet s.staging.bytes → t.alphaErr = ⟨.none, 0, 0⟩)
      ∧ (t.alphaErr.code ≠ .none → keepsAllBut [.staging, .alphaErr] s t)

/-- R109: ALPHA_PRESET, for each of the three presets, and its refusal while a session is open. -/
def Obligations.PresetInstallsItsAlphabet : Prop :=
  ∀ (p : Preset) (s : State),
    (sessionOpen s → ∃ t, exec (presetCommand p) s = .next t
      ∧ t.cmdErr = recorded s .busy (presetWord p) ∧ keepsAllBut [.cmdErr] s t)
    ∧ (¬ sessionOpen s → ∃ t, exec (presetCommand p) s = .next t
      ∧ t.alpha.fwd = presetTable p ∧ InverseTables t.alpha
      ∧ t.alpha.order = (match p with | .zbase32 => .inverse | .rfc4648 => .normal | .bech32 => .normal)
      ∧ t.alpha.src = (match p with | .zbase32 => .zbase32 | .rfc4648 => .rfc4648 | .bech32 => .bech32)
      ∧ t.alphaErr = ⟨.none, 0, 0⟩ ∧ keepsAllBut [.alpha, .alphaErr] s t)

/-! ## The length unit -/

/-- R131, R130: LEN_ENC, with no wrap; the result exceeds the emitted count by 1, 1, 1, 2, 2. -/
def Obligations.LenEncComputesEncodedLength : Prop :=
  ∀ (n : Length) (s : State), ∃ t, exec (.lenEnc n) s = .next t
    ∧ t.lenOut.toNat = n.toNat / 5 * 8 + n.toNat % 5 * 2 + 1
    ∧ t.lenOut.toNat = encodedCount n.toNat + (if n.toNat % 5 ≤ 2 then 1 else 2)
    ∧ keepsAllBut [.lenOut] s t

/-- R132, R130: LEN_DEC, with no wrap, and where it is tight. -/
def Obligations.LenDecComputesUpperBound : Prop :=
  ∀ (m : Length) (s : State), ∃ t, exec (.lenDec m) s = .next t
    ∧ t.lenOut.toNat = m.toNat / 8 * 5 + m.toNat % 8
    ∧ (t.lenOut.toNat = decodedCount .inverse m.toNat ↔ m.toNat % 8 ≤ 1)
    ∧ (t.lenOut.toNat = decodedCount .normal m.toNat ↔ m.toNat % 8 = 0)
    ∧ keepsAllBut [.lenOut] s t

/-! ## The encoder unit -/

/-- R142: the table of sub-case counts, and that the bits carried out are the next phase's bits carried in. -/
def Obligations.SubcaseCounts : Prop :=
  (List.finRange 5).map (fun p => (carryBits p, availableBits p, symbolCount p, carryOutBits p)) =
    [(0, 8, 1, 3), (3, 11, 2, 1), (1, 9, 1, 4), (4, 12, 2, 2), (2, 10, 2, 0)]
  ∧ ∀ p : Fin 5, carryOutBits p = carryBits (nextPhase p)

/-- R140: ENC_START, in every state. -/
def Obligations.EncStartOpensSession : Prop :=
  ∀ s : State, ∃ t, exec .encStart s = .next t
    ∧ t.enc.state = .active ∧ t.enc.phase = 0 ∧ t.enc.carry = 0 ∧ t.enc.pend = false ∧ t.enc.icnt = 0 ∧ t.enc.ocnt = 0
    ∧ keepsAllBut [.enc] s t

/-- 42_encoder.md §1, §2: ENC_BYTE, with the sub-case tables, the lookup and the emission order, in every state. For a carry
with bits at or above K(ENC_PHASE), which no run reaches, that the Inverse-order rows read its K low bits is the model's
choice (DESIGN CHOICE, log entry 9). -/
def Obligations.EncByteTakesOneByte : Prop :=
  ∀ (d : Byte) (s : State),
    (s.enc.state ≠ .active → ∃ t, exec (.encByte d) s = .next t
      ∧ t.cmdErr = recorded s .seqEnc (0x60000000 ||| d.setWidth 32) ∧ keepsAllBut [.cmdErr] s t)
    ∧ (s.enc.state = .active → ∃ t, exec (.encByte d) s = .next t
      ∧ t.encOut = s.encOut ++
          (subcaseRow s.alpha.order s.enc.phase s.enc.carry d).1.map (fun v => s.alpha.fwd.get v.toFin)
      ∧ t.enc.carry = (subcaseRow s.alpha.order s.enc.phase s.enc.carry d).2
      ∧ t.enc.phase.val = (s.enc.phase.val + 1) % 5
      ∧ (t.enc.pend = true ↔ (s.enc.phase.val + 1) % 5 ≠ 0)
      ∧ t.enc.icnt.toNat = (s.enc.icnt.toNat + 1) % 2 ^ 32
      ∧ t.enc.ocnt.toNat = (s.enc.ocnt.toNat + (carryBits s.enc.phase + 8) / 5) % 2 ^ 32
      ∧ t.enc.state = .active ∧ keepsAllBut [.enc, .encOut] s t)

/-- R151: the final symbol by phase and order, from states that meet the encoder's invariant (10_state.md R32). -/
def Obligations.EncFinishFlushesCarry : Prop :=
  ∀ s : State, s.enc.state = .active → EncoderInv s.enc → ∃ t, exec .encFinish s = .next t
    ∧ t.encOut = s.encOut ++
        ((finalRow s.alpha.order s.enc.phase s.enc.carry).map (fun v => s.alpha.fwd.get v.toFin)).toList
    ∧ t.enc.ocnt.toNat = (s.enc.ocnt.toNat + (if s.enc.phase = 0 then 0 else 1)) % 2 ^ 32
    ∧ keepsAllBut [.enc, .encOut] s t

/-- R150: ENC_FINISH in every state; a pending carry of any value emits one symbol, no pending carry none. -/
def Obligations.EncFinishClosesSession : Prop :=
  ∀ s : State,
    (s.enc.state ≠ .active → ∃ t, exec .encFinish s = .next t
      ∧ t.cmdErr = recorded s .seqEnc 0x70000000 ∧ keepsAllBut [.cmdErr] s t)
    ∧ (s.enc.state = .active → ∃ t, exec .encFinish s = .next t
      ∧ (s.enc.pend = false → t.encOut = s.encOut ∧ t.enc.ocnt = s.enc.ocnt)
      ∧ (s.enc.pend = true → s.alpha.order = .normal →
          t.encOut = s.encOut ++ [s.alpha.fwd.get (s.enc.carry.setWidth 5 <<< (5 - carryBits s.enc.phase)).toFin])
      ∧ (s.enc.pend = true → s.alpha.order = .inverse →
          t.encOut = s.encOut ++ [s.alpha.fwd.get (s.enc.carry.setWidth 5).toFin])
      ∧ (s.enc.pend = true → t.enc.ocnt.toNat = (s.enc.ocnt.toNat + 1) % 2 ^ 32)
      ∧ t.enc.carry = 0 ∧ t.enc.pend = false ∧ t.enc.state = .done
      ∧ t.enc.phase = s.enc.phase ∧ t.enc.icnt = s.enc.icnt ∧ keepsAllBut [.enc, .encOut] s t)

/-- R154, R152: an Inverse-order session, from any state, emits the 5-bit groups of the little-endian integer. -/
def Obligations.InverseSessionEmitsLittleEndianGroups : Prop :=
  ∀ (s : State) (bytes : List Byte) (rest : List PortInput),
    s.alpha.order = .inverse → s.port = encodeSession bytes ++ rest →
    ∃ t, runSteps (bytes.length + 2) s = .next t
      ∧ t.encOut = s.encOut ++ inverseSymbols s.alpha bytes ∧ t.enc.state = .done
      ∧ t.enc.icnt = BitVec.ofNat 32 bytes.length ∧ t.enc.ocnt = BitVec.ofNat 32 (encodedCount bytes.length)
      ∧ t.port = rest ∧ keepsAllBut [.enc, .encOut, .port] s t

/-- R153, R152: a Normal-order session, from any state, emits the 5-bit groups of the MSB-first bit string. -/
def Obligations.NormalSessionEmitsBitStringGroups : Prop :=
  ∀ (s : State) (bytes : List Byte) (rest : List PortInput),
    s.alpha.order = .normal → s.port = encodeSession bytes ++ rest →
    ∃ t, runSteps (bytes.length + 2) s = .next t
      ∧ t.encOut = s.encOut ++ normalSymbols s.alpha bytes ∧ t.enc.state = .done
      ∧ t.enc.icnt = BitVec.ofNat 32 bytes.length ∧ t.enc.ocnt = BitVec.ofNat 32 (encodedCount bytes.length)
      ∧ t.port = rest ∧ keepsAllBut [.enc, .encOut, .port] s t

/-! ## The decoder unit -/

/-- R170: DEC_START, in every state. -/
def Obligations.DecStartOpensSession : Prop :=
  ∀ s : State, ∃ t, exec .decStart s = .next t
    ∧ t.dec.state = .active ∧ t.dec.acc = 0 ∧ t.dec.nbits = 0 ∧ t.dec.icnt = 0 ∧ t.dec.ocnt = 0
    ∧ t.dec.errOff = 0 ∧ t.dec.errByte = 0 ∧ keepsAllBut [.dec] s t

/-- R176: a valid symbol in Normal order, from states that meet the decoder's invariant (10_state.md R36). -/
def Obligations.DecSymNormalStep : Prop :=
  ∀ (d : Byte) (v : Value) (s : State), s.dec.state = .active → s.alpha.order = .normal →
    DecoderInv s.alpha.order s.dec → s.alpha.rev.get d.toFin = v.setWidth 8 →
    ∃ t, exec (.decSym d) s = .next t
      ∧ (8 ≤ s.dec.nbits.toNat + 5 →
          t.dec.nbits.toNat = s.dec.nbits.toNat + 5 - 8
          ∧ t.decOut = s.decOut ++ [((s.dec.acc ++ v) >>> (s.dec.nbits.toNat + 5 - 8)).setWidth 8]
          ∧ t.dec.acc.toNat = (s.dec.acc ++ v).toNat % 2 ^ (s.dec.nbits.toNat + 5 - 8)
          ∧ t.dec.ocnt.toNat = (s.dec.ocnt.toNat + 1) % 2 ^ 32)
      ∧ (s.dec.nbits.toNat + 5 < 8 →
          t.dec.nbits.toNat = s.dec.nbits.toNat + 5 ∧ t.decOut = s.decOut
          ∧ t.dec.acc.toNat = (s.dec.acc ++ v).toNat ∧ t.dec.ocnt = s.dec.ocnt)
      ∧ t.dec.icnt.toNat = (s.dec.icnt.toNat + 1) % 2 ^ 32
      ∧ t.dec.state = .active ∧ t.dec.errOff = s.dec.errOff ∧ t.dec.errByte = s.dec.errByte
      ∧ keepsAllBut [.dec, .decOut] s t

/-- R177: a valid symbol in Inverse order, from states that meet the decoder's invariant. -/
def Obligations.DecSymInverseStep : Prop :=
  ∀ (d : Byte) (v : Value) (s : State), s.dec.state = .active → s.alpha.order = .inverse →
    DecoderInv s.alpha.order s.dec → s.alpha.rev.get d.toFin = v.setWidth 8 →
    ∃ t, exec (.decSym d) s = .next t
      ∧ (8 ≤ s.dec.nbits.toNat →
          t.dec.nbits.toNat = s.dec.nbits.toNat - 8 + 5
          ∧ t.decOut = s.decOut ++ [s.dec.acc.extractLsb 7 0]
          ∧ t.dec.acc = s.dec.acc >>> 8 ||| v.setWidth 12 <<< (s.dec.nbits.toNat - 8)
          ∧ t.dec.ocnt.toNat = (s.dec.ocnt.toNat + 1) % 2 ^ 32)
      ∧ (s.dec.nbits.toNat < 8 →
          t.dec.nbits.toNat = s.dec.nbits.toNat + 5 ∧ t.decOut = s.decOut
          ∧ t.dec.acc = s.dec.acc ||| v.setWidth 12 <<< s.dec.nbits.toNat ∧ t.dec.ocnt = s.dec.ocnt)
      ∧ t.dec.icnt.toNat = (s.dec.icnt.toNat + 1) % 2 ^ 32
      ∧ 5 ≤ t.dec.nbits.toNat ∧ t.dec.nbits.toNat ≤ 12
      ∧ t.dec.state = .active ∧ t.dec.errOff = s.dec.errOff ∧ t.dec.errByte = s.dec.errByte
      ∧ keepsAllBut [.dec, .decOut] s t

/-- R173, R215: an invalid symbol, in either order and with any bits pending. -/
def Obligations.DecSymInvalidFails : Prop :=
  ∀ (d : Byte) (s : State), s.dec.state = .active → s.alpha.rev.get d.toFin = 0xFF →
    ∃ t, exec (.decSym d) s = .next t
      ∧ t.dec.errOff = s.dec.icnt ∧ t.dec.errByte = d ∧ t.dec.state = .failed
      ∧ t.dec.acc = s.dec.acc ∧ t.dec.nbits = s.dec.nbits ∧ t.dec.icnt = s.dec.icnt ∧ t.dec.ocnt = s.dec.ocnt
      ∧ keepsAllBut [.dec] s t

/-- R174: FAILED is terminal until DEC_START: DEC_SYM and DEC_FINISH change nothing, and no other command moves the
decoder. -/
def Obligations.FailedIsTerminal : Prop :=
  ∀ s : State, s.dec.state = .failed →
    (∀ d, exec (.decSym d) s = .next s) ∧ exec .decFinish s = .next s
    ∧ (∀ i, i ≠ .decStart → ∃ t, exec i s = .next t ∧ t.dec = s.dec ∧ t.decOut = s.decOut)
    ∧ ∃ t, exec .decStart s = .next t ∧ t.dec.state = .active

/-- R180, R182, with the DISCARD of R181: DEC_FINISH in every state. -/
def Obligations.DecFinishClosesSession : Prop :=
  ∀ s : State,
    (s.dec.state = .failed → exec .decFinish s = .next s)
    ∧ (s.dec.state = .idle ∨ s.dec.state = .done → ∃ t, exec .decFinish s = .next t
      ∧ t.cmdErr = recorded s .seqDec 0xA0000000 ∧ keepsAllBut [.cmdErr] s t)
    ∧ (s.dec.state = .active → ∃ t, exec .decFinish s = .next t
      ∧ (s.alpha.order = .inverse → s.dec.nbits ≠ 0 →
          t.decOut = s.decOut ++ [s.dec.acc.extractLsb 7 0] ∧ t.dec.ocnt.toNat = (s.dec.ocnt.toNat + 1) % 2 ^ 32)
      ∧ (s.alpha.order = .normal ∨ s.dec.nbits = 0 → t.decOut = s.decOut ∧ t.dec.ocnt = s.dec.ocnt)
      ∧ t.dec.acc = 0 ∧ t.dec.nbits = 0 ∧ t.dec.state = .done
      ∧ t.dec.icnt = s.dec.icnt ∧ t.dec.errOff = s.dec.errOff ∧ t.dec.errByte = s.dec.errByte
      ∧ keepsAllBut [.dec, .decOut] s t)

/-- R181: the Normal-order tail under each value of P_NORMAL_TAIL; exec runs DISCARD. -/
def Obligations.NormalTailUnderEachParameter : Prop :=
  ∀ s : State, s.dec.state = .active → s.alpha.order = .normal →
    exec .decFinish s = decFinishWith .discard s
    ∧ (∃ t, decFinishWith .discard s = .next t ∧ t.decOut = s.decOut ∧ t.dec.ocnt = s.dec.ocnt)
    ∧ ∃ t, decFinishWith .emitIfNonzero s = .next t
      ∧ (s.dec.nbits ≠ 0 ∧ s.dec.acc ≠ 0 →
          t.decOut = s.decOut ++ [s.dec.acc.extractLsb 7 0] ∧ t.dec.ocnt = s.dec.ocnt + 1)
      ∧ (s.dec.nbits = 0 ∨ s.dec.acc = 0 → t.decOut = s.decOut ∧ t.dec.ocnt = s.dec.ocnt)

/-- R183: the number of bytes of a session of valid symbols that ends in DONE, from any state. -/
def Obligations.DecoderSessionByteCount : Prop :=
  ∀ (s : State) (symbols : List Byte) (rest : List PortInput),
    (∀ d ∈ symbols, isSymbol s.alpha d) → s.port = decodeSession symbols ++ rest →
    ∃ t bytes, runSteps (symbols.length + 2) s = .next t ∧ t.dec.state = .done
      ∧ t.decOut = s.decOut ++ bytes ∧ bytes.length = decodedCount s.alpha.order symbols.length
      ∧ t.dec.icnt = BitVec.ofNat 32 symbols.length ∧ t.dec.ocnt = BitVec.ofNat 32 bytes.length
      ∧ t.port = rest ∧ keepsAllBut [.dec, .decOut, .port] s t

/-- R185: the round trip, for every byte sequence and every alphabet in either order: what an encoder session emits, a
decoder session under the same alphabet turns back into the bytes, under either value of P_NORMAL_TAIL. -/
def Obligations.RoundTrip : Prop :=
  ∀ (s : State) (bytes : List Byte) (rest : List PortInput), InverseTables s.alpha → s.port = encodeSession bytes ++ rest →
    ∃ t symbols, runSteps (bytes.length + 2) s = .next t ∧ t.encOut = s.encOut ++ symbols
      ∧ (∀ (u : State) (after : List PortInput), u.alpha = s.alpha → u.port = decodeSession symbols ++ after →
          ∃ v, runSteps (symbols.length + 2) u = .next v ∧ v.dec.state = .done ∧ v.decOut = u.decOut ++ bytes
            ∧ v.dec.ocnt = BitVec.ofNat 32 bytes.length ∧ v.cmdErr = u.cmdErr)
      ∧ (∀ (u : State) (after : List PortInput), u.alpha = s.alpha → u.port = decodeSymbols symbols ++ after →
          ∃ v, runSteps (symbols.length + 1) u = .next v
            ∧ ∀ tail, ∃ x, decFinishWith tail v = .next x ∧ x.dec.state = .done ∧ x.decOut = u.decOut ++ bytes)

/-- R186: the first byte outside the alphabet fails the session, with its index and the byte. -/
def Obligations.FirstInvalidSymbolIsReported : Prop :=
  ∀ (s : State) (before : List Byte) (d : Byte) (after : List Byte) (rest : List PortInput),
    InverseTables s.alpha → (∀ x ∈ before, ∃ i, s.alpha.fwd.get i = x) → (∀ i, s.alpha.fwd.get i ≠ d) →
    s.port = decodeSession (before ++ d :: after) ++ rest →
    ∃ t, runSteps (before.length + after.length + 3) s = .next t ∧ t.dec.state = .failed
      ∧ t.dec.errOff = BitVec.ofNat 32 before.length ∧ t.dec.errByte = d
      ∧ t.dec.icnt = BitVec.ofNat 32 before.length
      ∧ t.port = rest ∧ keepsAllBut [.dec, .decOut, .port] s t

/-- 41_length.md R133: both length helpers bound what a session emits, LEN_ENC strictly. -/
def Obligations.LengthHelpersBoundSessions : Prop :=
  (∀ (s : State) (bytes : List Byte), bytes.length < 2 ^ 24 → s.port = encodeSession bytes →
    ∃ t u, runSteps (bytes.length + 2) s = .next t ∧ exec (.lenEnc (BitVec.ofNat 24 bytes.length)) t = .next u
      ∧ t.encOut.length < s.encOut.length + u.lenOut.toNat)
  ∧ (∀ (s : State) (symbols : List Byte), symbols.length < 2 ^ 24 → s.port = decodeSession symbols →
    ∃ t u, runSteps (symbols.length + 2) s = .next t ∧ exec (.lenDec (BitVec.ofNat 24 symbols.length)) t = .next u
      ∧ t.decOut.length ≤ s.decOut.length + u.lenOut.toNat)

/-! ## Errors and control -/

/-- R200: CLR_ERR. -/
def Obligations.ClrErrClearsRecord : Prop :=
  ∀ s : State, ∃ t, exec .clrErr s = .next t ∧ t.cmdErr.cause = .none ∧ t.cmdErr.word = 0 ∧ keepsAllBut [.cmdErr] s t

/-- R213, R212: every word raises CmdError exactly under the conditions of the table, and the error is then its only effect;
the record takes the first error and its word. -/
def Obligations.CommandErrorTable : Prop :=
  ∀ (s : State) (w : Word) (rest : List PortInput), s.port = .command w :: rest →
    ∃ t, step s = .next t ∧ t.port = rest
      ∧ (decode w = .illegal → t.cmdErr = recorded s .illegalCmd w ∧ keepsAllBut [.cmdErr, .port] s t)
      ∧ ∀ i, decode w = .instr i →
        (∀ c, cmdErrorOf i s = some c → t.cmdErr = recorded s c w ∧ keepsAllBut [.cmdErr, .port] s t)
        ∧ (cmdErrorOf i s = none → i ≠ .clrErr → t.cmdErr = s.cmdErr)

/-- 60_exceptions.md R211, R212: CMD_ERR.WORD is the very word the block accepted, for every kind of command error. -/
def Obligations.RecordedWordIsAcceptedWord : Prop :=
  ∀ (s : State) (w : Word) (rest : List PortInput), s.port = .command w :: rest → s.cmdErr.cause = .none →
    ∃ t, step s = .next t ∧ (t.cmdErr.cause ≠ .none → t.cmdErr.word = w)

/-- 10_state.md R41: the record keeps the first error until CLR_ERR or reset. -/
def Obligations.FirstCommandErrorIsKept : Prop :=
  ∀ (s : State) (w : Word) (rest : List PortInput), s.port = .command w :: rest → s.cmdErr.cause ≠ .none →
    decode w ≠ .instr .clrErr → ∃ t, step s = .next t ∧ t.cmdErr = s.cmdErr

/-! ## Rules of the whole machine -/

/-- 10_state.md R46 with R22, R24, R27, R33, R37, R39, R40, R42: which commands may change which part of State, for every
part but CMD_ERR, whose writers CommandErrorTable and ClrErrClearsRecord state. -/
def Obligations.WritersOfEachPart : Prop :=
  ∀ (i : Instr) (s : State), ∃ t, exec i s = .next t
    ∧ (t.alpha ≠ s.alpha → i = .alphaCommit ∨ ∃ p, i = presetCommand p)
    ∧ (t.staging ≠ s.staging → (∃ o, i = .alphaBegin o) ∨ (∃ d, i = .alphaByte d) ∨ i = .alphaCommit)
    ∧ (t.enc ≠ s.enc → isEncoderCommand i = true)
    ∧ (t.dec ≠ s.dec → isDecoderCommand i = true)
    ∧ (t.lenOut ≠ s.lenOut → (∃ n, i = .lenEnc n) ∨ ∃ m, i = .lenDec m)
    ∧ (t.alphaErr ≠ s.alphaErr → i = .alphaCommit ∨ ∃ p, i = presetCommand p)
    ∧ (t.encOut ≠ s.encOut → (∃ d, i = .encByte d) ∨ i = .encFinish)
    ∧ (t.decOut ≠ s.decOut → (∃ d, i = .decSym d) ∨ i = .decFinish)
    ∧ t.port = s.port

/-- 20_memory.md R75: no word on the command port changes the alphabet while a session is open. -/
def Obligations.AlphabetFrozenDuringSession : Prop :=
  ∀ (s : State) (w : Word) (rest : List PortInput), s.port = .command w :: rest → sessionOpen s →
    ∃ t, step s = .next t ∧ t.alpha = s.alpha

/-- 10_state.md R42, 70_reset_and_hazards.md R251: a command only appends, at most two symbols and at most one byte. -/
def Obligations.StreamsOnlyGrow : Prop :=
  ∀ (s : State) (w : Word) (rest : List PortInput), s.port = .command w :: rest →
    ∃ t xs ys, step s = .next t ∧ t.encOut = s.encOut ++ xs ∧ xs.length ≤ 2
      ∧ t.decOut = s.decOut ++ ys ∧ ys.length ≤ 1

/-- 60_exceptions.md R226: a unit's commands read only its own state and the shared alphabet. -/
def Obligations.UnitsReadOnlyOwnState : Prop :=
  ∀ (i : Instr) (s₁ s₂ : State), s₁.alpha = s₂.alpha → ∃ t₁ t₂, exec i s₁ = .next t₁ ∧ exec i s₂ = .next t₂
    ∧ (isEncoderCommand i = true → s₁.enc = s₂.enc →
        t₁.enc = t₂.enc ∧ ∃ xs, t₁.encOut = s₁.encOut ++ xs ∧ t₂.encOut = s₂.encOut ++ xs)
    ∧ (isDecoderCommand i = true → s₁.dec = s₂.dec →
        t₁.dec = t₂.dec ∧ ∃ ys, t₁.decOut = s₁.decOut ++ ys ∧ t₂.decOut = s₂.decOut ++ ys)

/-- 60_exceptions.md R226: encoder and decoder commands that raise no command error may interleave in either order. -/
def Obligations.EncoderAndDecoderCommute : Prop :=
  ∀ (e d : Instr) (s : State), isEncoderCommand e = true → isDecoderCommand d = true →
    cmdErrorOf e s = none → cmdErrorOf d s = none →
    ∃ t₁ t₂ u, exec e s = .next t₁ ∧ exec d t₁ = .next u ∧ exec d s = .next t₂ ∧ exec e t₂ = .next u

/-! ## Invariants -/

/-- R26, R32 and 10_state.md R22, R25, R35, R36, R38, R40, R41: the block's invariant is kept by every step, from every
state that meets it. -/
def Obligations.StepKeepsBlockInvariant : Prop :=
  ∀ s t : State, BlockInv s → step s = .next t → BlockInv t

/-- The block's invariant holds right after reset. -/
def Obligations.ResetMeetsBlockInvariant : Prop := BlockInv State.reset

/-- R26, R32: at every command boundary, whatever the host sends. -/
def Obligations.EveryBoundaryMeetsInvariant : Prop :=
  ∀ (inputs : List PortInput) (k : Nat), ∃ t, runSteps k (State.reset.present inputs) = .next t ∧ BlockInv t

/-! ## The read port -/

/-- R43: the register map of the read port, and 0 at every other index. -/
def Obligations.ReadPortMap : Prop :=
  ∀ s : State,
    regRead s 0x001 = s.enc.icnt ∧ regRead s 0x002 = s.enc.ocnt ∧ regRead s 0x004 = s.dec.icnt
    ∧ regRead s 0x005 = s.dec.ocnt ∧ regRead s 0x007 = s.dec.errOff ∧ regRead s 0x008 = s.dec.errByte.setWidth 32
    ∧ regRead s 0x009 = s.lenOut
    ∧ regRead s 0x00B = (match s.cmdErr.cause with
        | .none => 0 | .illegalCmd => 1 | .seqEnc => 2 | .seqDec => 3 | .seqAlpha => 4 | .busy => 5)
    ∧ regRead s 0x00C = s.cmdErr.word ∧ regRead s 0x00D = s.staging.len.setWidth 32
    ∧ (∀ i : Fin 32, regRead s (BitVec.ofNat 12 (0x100 + i.val)) = (s.alpha.fwd.get i).setWidth 32)
    ∧ (∀ b : Fin 256, regRead s (BitVec.ofNat 12 (0x200 + b.val)) = (s.alpha.rev.get b).setWidth 32)
    ∧ (∀ i : Fin 32, regRead s (BitVec.ofNat 12 (0x300 + i.val)) = (s.staging.bytes.get i).setWidth 32)
    ∧ ∀ idx : BitVec 12, (0x00D < idx.toNat ∧ idx.toNat < 0x100) ∨ (0x120 ≤ idx.toNat ∧ idx.toNat < 0x200)
        ∨ 0x320 ≤ idx.toNat → regRead s idx = 0

/-- R44: every field of STATUS. -/
def Obligations.StatusFields : Prop :=
  ∀ s : State,
    (regRead s 0).extractLsb 1 0 = (match s.enc.state with | .idle => 0#2 | .active => 1#2 | .done => 2#2)
    ∧ (regRead s 0).extractLsb 3 2 =
        (match s.dec.state with | .idle => 0#2 | .active => 1#2 | .done => 2#2 | .failed => 3#2)
    ∧ (regRead s 0).getLsbD 4 = s.staging.loading
    ∧ (regRead s 0).getLsbD 5 = (s.staging.order == .inverse)
    ∧ (regRead s 0).getLsbD 6 = (s.alpha.order == .inverse)
    ∧ (regRead s 0).extractLsb 8 7 =
        (match s.alpha.src with | .zbase32 => 0#2 | .rfc4648 => 1#2 | .bech32 => 2#2 | .custom => 3#2)
    ∧ ((regRead s 0).extractLsb 11 9).toNat = s.enc.phase.val
    ∧ (regRead s 0).getLsbD 12 = s.enc.pend
    ∧ (regRead s 0).extractLsb 16 13 = s.dec.nbits
    ∧ (regRead s 0).getLsbD 17 = (s.cmdErr.cause != .none)
    ∧ (regRead s 0).extractLsb 19 18 = (match s.alphaErr.code with
        | .none => 0#2 | .invalidLength => 1#2 | .unprintableSymbol => 2#2 | .duplicateSymbol => 3#2)
    ∧ (regRead s 0).extractLsb 31 20 = 0#12

/-- R45: the layouts of the other packed registers. -/
def Obligations.PackedRegisterLayouts : Prop :=
  ∀ s : State,
    (regRead s 0x003).extractLsb 3 0 = s.enc.carry ∧ ((regRead s 0x003).extractLsb 6 4).toNat = carryBits s.enc.phase
    ∧ (regRead s 0x003).getLsbD 7 = s.enc.pend ∧ (regRead s 0x003).extractLsb 31 8 = 0#24
    ∧ (regRead s 0x006).extractLsb 11 0 = s.dec.acc ∧ (regRead s 0x006).extractLsb 15 12 = 0#4
    ∧ (regRead s 0x006).extractLsb 19 16 = s.dec.nbits ∧ (regRead s 0x006).extractLsb 31 20 = 0#12
    ∧ (regRead s 0x00A).extractLsb 1 0 = (match s.alphaErr.code with
        | .none => 0#2 | .invalidLength => 1#2 | .unprintableSymbol => 2#2 | .duplicateSymbol => 3#2)
    ∧ (regRead s 0x00A).extractLsb 7 2 = 0#6 ∧ (regRead s 0x00A).extractLsb 15 8 = s.alphaErr.byte
    ∧ (regRead s 0x00A).extractLsb 20 16 = s.alphaErr.pos ∧ (regRead s 0x00A).extractLsb 31 21 = 0#11
end

