-- ==== Sys2Proof/Laws/State.lean ====
section
/-! SUPPORT. One lemma per field of State per update of Machine/Ops.lean, all true by unfolding the update: no later proof
unfolds a record update. -/

namespace Sys2Proof.Machine

variable (s : State)

@[simp] theorem State.withAlpha_alpha (a : AlphabetUnit) : (s.withAlpha a).alpha = a := rfl
@[simp] theorem State.withAlpha_staging (a : AlphabetUnit) : (s.withAlpha a).staging = s.staging := rfl
@[simp] theorem State.withAlpha_enc (a : AlphabetUnit) : (s.withAlpha a).enc = s.enc := rfl
@[simp] theorem State.withAlpha_dec (a : AlphabetUnit) : (s.withAlpha a).dec = s.dec := rfl
@[simp] theorem State.withAlpha_lenOut (a : AlphabetUnit) : (s.withAlpha a).lenOut = s.lenOut := rfl
@[simp] theorem State.withAlpha_alphaErr (a : AlphabetUnit) : (s.withAlpha a).alphaErr = s.alphaErr := rfl
@[simp] theorem State.withAlpha_cmdErr (a : AlphabetUnit) : (s.withAlpha a).cmdErr = s.cmdErr := rfl
@[simp] theorem State.withAlpha_encOut (a : AlphabetUnit) : (s.withAlpha a).encOut = s.encOut := rfl
@[simp] theorem State.withAlpha_decOut (a : AlphabetUnit) : (s.withAlpha a).decOut = s.decOut := rfl
@[simp] theorem State.withAlpha_port (a : AlphabetUnit) : (s.withAlpha a).port = s.port := rfl

@[simp] theorem State.withStaging_alpha (g : Staging) : (s.withStaging g).alpha = s.alpha := rfl
@[simp] theorem State.withStaging_staging (g : Staging) : (s.withStaging g).staging = g := rfl
@[simp] theorem State.withStaging_enc (g : Staging) : (s.withStaging g).enc = s.enc := rfl
@[simp] theorem State.withStaging_dec (g : Staging) : (s.withStaging g).dec = s.dec := rfl
@[simp] theorem State.withStaging_lenOut (g : Staging) : (s.withStaging g).lenOut = s.lenOut := rfl
@[simp] theorem State.withStaging_alphaErr (g : Staging) : (s.withStaging g).alphaErr = s.alphaErr := rfl
@[simp] theorem State.withStaging_cmdErr (g : Staging) : (s.withStaging g).cmdErr = s.cmdErr := rfl
@[simp] theorem State.withStaging_encOut (g : Staging) : (s.withStaging g).encOut = s.encOut := rfl
@[simp] theorem State.withStaging_decOut (g : Staging) : (s.withStaging g).decOut = s.decOut := rfl
@[simp] theorem State.withStaging_port (g : Staging) : (s.withStaging g).port = s.port := rfl

@[simp] theorem State.withEnc_alpha (e : EncoderUnit) : (s.withEnc e).alpha = s.alpha := rfl
@[simp] theorem State.withEnc_staging (e : EncoderUnit) : (s.withEnc e).staging = s.staging := rfl
@[simp] theorem State.withEnc_enc (e : EncoderUnit) : (s.withEnc e).enc = e := rfl
@[simp] theorem State.withEnc_dec (e : EncoderUnit) : (s.withEnc e).dec = s.dec := rfl
@[simp] theorem State.withEnc_lenOut (e : EncoderUnit) : (s.withEnc e).lenOut = s.lenOut := rfl
@[simp] theorem State.withEnc_alphaErr (e : EncoderUnit) : (s.withEnc e).alphaErr = s.alphaErr := rfl
@[simp] theorem State.withEnc_cmdErr (e : EncoderUnit) : (s.withEnc e).cmdErr = s.cmdErr := rfl
@[simp] theorem State.withEnc_encOut (e : EncoderUnit) : (s.withEnc e).encOut = s.encOut := rfl
@[simp] theorem State.withEnc_decOut (e : EncoderUnit) : (s.withEnc e).decOut = s.decOut := rfl
@[simp] theorem State.withEnc_port (e : EncoderUnit) : (s.withEnc e).port = s.port := rfl

@[simp] theorem State.withDec_alpha (d : DecoderUnit) : (s.withDec d).alpha = s.alpha := rfl
@[simp] theorem State.withDec_staging (d : DecoderUnit) : (s.withDec d).staging = s.staging := rfl
@[simp] theorem State.withDec_enc (d : DecoderUnit) : (s.withDec d).enc = s.enc := rfl
@[simp] theorem State.withDec_dec (d : DecoderUnit) : (s.withDec d).dec = d := rfl
@[simp] theorem State.withDec_lenOut (d : DecoderUnit) : (s.withDec d).lenOut = s.lenOut := rfl
@[simp] theorem State.withDec_alphaErr (d : DecoderUnit) : (s.withDec d).alphaErr = s.alphaErr := rfl
@[simp] theorem State.withDec_cmdErr (d : DecoderUnit) : (s.withDec d).cmdErr = s.cmdErr := rfl
@[simp] theorem State.withDec_encOut (d : DecoderUnit) : (s.withDec d).encOut = s.encOut := rfl
@[simp] theorem State.withDec_decOut (d : DecoderUnit) : (s.withDec d).decOut = s.decOut := rfl
@[simp] theorem State.withDec_port (d : DecoderUnit) : (s.withDec d).port = s.port := rfl

@[simp] theorem State.withLenOut_alpha (n : BitVec 32) : (s.withLenOut n).alpha = s.alpha := rfl
@[simp] theorem State.withLenOut_staging (n : BitVec 32) : (s.withLenOut n).staging = s.staging := rfl
@[simp] theorem State.withLenOut_enc (n : BitVec 32) : (s.withLenOut n).enc = s.enc := rfl
@[simp] theorem State.withLenOut_dec (n : BitVec 32) : (s.withLenOut n).dec = s.dec := rfl
@[simp] theorem State.withLenOut_lenOut (n : BitVec 32) : (s.withLenOut n).lenOut = n := rfl
@[simp] theorem State.withLenOut_alphaErr (n : BitVec 32) : (s.withLenOut n).alphaErr = s.alphaErr := rfl
@[simp] theorem State.withLenOut_cmdErr (n : BitVec 32) : (s.withLenOut n).cmdErr = s.cmdErr := rfl
@[simp] theorem State.withLenOut_encOut (n : BitVec 32) : (s.withLenOut n).encOut = s.encOut := rfl
@[simp] theorem State.withLenOut_decOut (n : BitVec 32) : (s.withLenOut n).decOut = s.decOut := rfl
@[simp] theorem State.withLenOut_port (n : BitVec 32) : (s.withLenOut n).port = s.port := rfl

@[simp] theorem State.withAlphaErr_alpha (e : AlphaErr) : (s.withAlphaErr e).alpha = s.alpha := rfl
@[simp] theorem State.withAlphaErr_staging (e : AlphaErr) : (s.withAlphaErr e).staging = s.staging := rfl
@[simp] theorem State.withAlphaErr_enc (e : AlphaErr) : (s.withAlphaErr e).enc = s.enc := rfl
@[simp] theorem State.withAlphaErr_dec (e : AlphaErr) : (s.withAlphaErr e).dec = s.dec := rfl
@[simp] theorem State.withAlphaErr_lenOut (e : AlphaErr) : (s.withAlphaErr e).lenOut = s.lenOut := rfl
@[simp] theorem State.withAlphaErr_alphaErr (e : AlphaErr) : (s.withAlphaErr e).alphaErr = e := rfl
@[simp] theorem State.withAlphaErr_cmdErr (e : AlphaErr) : (s.withAlphaErr e).cmdErr = s.cmdErr := rfl
@[simp] theorem State.withAlphaErr_encOut (e : AlphaErr) : (s.withAlphaErr e).encOut = s.encOut := rfl
@[simp] theorem State.withAlphaErr_decOut (e : AlphaErr) : (s.withAlphaErr e).decOut = s.decOut := rfl
@[simp] theorem State.withAlphaErr_port (e : AlphaErr) : (s.withAlphaErr e).port = s.port := rfl

@[simp] theorem State.withCmdErr_alpha (e : CmdErr) : (s.withCmdErr e).alpha = s.alpha := rfl
@[simp] theorem State.withCmdErr_staging (e : CmdErr) : (s.withCmdErr e).staging = s.staging := rfl
@[simp] theorem State.withCmdErr_enc (e : CmdErr) : (s.withCmdErr e).enc = s.enc := rfl
@[simp] theorem State.withCmdErr_dec (e : CmdErr) : (s.withCmdErr e).dec = s.dec := rfl
@[simp] theorem State.withCmdErr_lenOut (e : CmdErr) : (s.withCmdErr e).lenOut = s.lenOut := rfl
@[simp] theorem State.withCmdErr_alphaErr (e : CmdErr) : (s.withCmdErr e).alphaErr = s.alphaErr := rfl
@[simp] theorem State.withCmdErr_cmdErr (e : CmdErr) : (s.withCmdErr e).cmdErr = e := rfl
@[simp] theorem State.withCmdErr_encOut (e : CmdErr) : (s.withCmdErr e).encOut = s.encOut := rfl
@[simp] theorem State.withCmdErr_decOut (e : CmdErr) : (s.withCmdErr e).decOut = s.decOut := rfl
@[simp] theorem State.withCmdErr_port (e : CmdErr) : (s.withCmdErr e).port = s.port := rfl

@[simp] theorem State.withPort_alpha (p : List PortInput) : (s.withPort p).alpha = s.alpha := rfl
@[simp] theorem State.withPort_staging (p : List PortInput) : (s.withPort p).staging = s.staging := rfl
@[simp] theorem State.withPort_enc (p : List PortInput) : (s.withPort p).enc = s.enc := rfl
@[simp] theorem State.withPort_dec (p : List PortInput) : (s.withPort p).dec = s.dec := rfl
@[simp] theorem State.withPort_lenOut (p : List PortInput) : (s.withPort p).lenOut = s.lenOut := rfl
@[simp] theorem State.withPort_alphaErr (p : List PortInput) : (s.withPort p).alphaErr = s.alphaErr := rfl
@[simp] theorem State.withPort_cmdErr (p : List PortInput) : (s.withPort p).cmdErr = s.cmdErr := rfl
@[simp] theorem State.withPort_encOut (p : List PortInput) : (s.withPort p).encOut = s.encOut := rfl
@[simp] theorem State.withPort_decOut (p : List PortInput) : (s.withPort p).decOut = s.decOut := rfl
@[simp] theorem State.withPort_port (p : List PortInput) : (s.withPort p).port = p := rfl

@[simp] theorem State.emitEnc_alpha (xs : List Byte) : (s.emitEnc xs).alpha = s.alpha := rfl
@[simp] theorem State.emitEnc_staging (xs : List Byte) : (s.emitEnc xs).staging = s.staging := rfl
@[simp] theorem State.emitEnc_enc (xs : List Byte) : (s.emitEnc xs).enc = s.enc := rfl
@[simp] theorem State.emitEnc_dec (xs : List Byte) : (s.emitEnc xs).dec = s.dec := rfl
@[simp] theorem State.emitEnc_lenOut (xs : List Byte) : (s.emitEnc xs).lenOut = s.lenOut := rfl
@[simp] theorem State.emitEnc_alphaErr (xs : List Byte) : (s.emitEnc xs).alphaErr = s.alphaErr := rfl
@[simp] theorem State.emitEnc_cmdErr (xs : List Byte) : (s.emitEnc xs).cmdErr = s.cmdErr := rfl
@[simp] theorem State.emitEnc_encOut (xs : List Byte) : (s.emitEnc xs).encOut = s.encOut ++ xs := rfl
@[simp] theorem State.emitEnc_decOut (xs : List Byte) : (s.emitEnc xs).decOut = s.decOut := rfl
@[simp] theorem State.emitEnc_port (xs : List Byte) : (s.emitEnc xs).port = s.port := rfl

@[simp] theorem State.emitDec_alpha (xs : List Byte) : (s.emitDec xs).alpha = s.alpha := rfl
@[simp] theorem State.emitDec_staging (xs : List Byte) : (s.emitDec xs).staging = s.staging := rfl
@[simp] theorem State.emitDec_enc (xs : List Byte) : (s.emitDec xs).enc = s.enc := rfl
@[simp] theorem State.emitDec_dec (xs : List Byte) : (s.emitDec xs).dec = s.dec := rfl
@[simp] theorem State.emitDec_lenOut (xs : List Byte) : (s.emitDec xs).lenOut = s.lenOut := rfl
@[simp] theorem State.emitDec_alphaErr (xs : List Byte) : (s.emitDec xs).alphaErr = s.alphaErr := rfl
@[simp] theorem State.emitDec_cmdErr (xs : List Byte) : (s.emitDec xs).cmdErr = s.cmdErr := rfl
@[simp] theorem State.emitDec_encOut (xs : List Byte) : (s.emitDec xs).encOut = s.encOut := rfl
@[simp] theorem State.emitDec_decOut (xs : List Byte) : (s.emitDec xs).decOut = s.decOut ++ xs := rfl
@[simp] theorem State.emitDec_port (xs : List Byte) : (s.emitDec xs).port = s.port := rfl

/-! Two updates of the same field: the later one stands. -/

@[simp] theorem State.withAlpha_withAlpha (a a' : AlphabetUnit) : (s.withAlpha a).withAlpha a' = s.withAlpha a' := rfl
@[simp] theorem State.withStaging_withStaging (g g' : Staging) : (s.withStaging g).withStaging g' = s.withStaging g' := rfl
@[simp] theorem State.withEnc_withEnc (e e' : EncoderUnit) : (s.withEnc e).withEnc e' = s.withEnc e' := rfl
@[simp] theorem State.withDec_withDec (d d' : DecoderUnit) : (s.withDec d).withDec d' = s.withDec d' := rfl
@[simp] theorem State.withLenOut_withLenOut (n n' : BitVec 32) : (s.withLenOut n).withLenOut n' = s.withLenOut n' := rfl
@[simp] theorem State.withAlphaErr_withAlphaErr (e e' : AlphaErr) : (s.withAlphaErr e).withAlphaErr e' = s.withAlphaErr e' := rfl
@[simp] theorem State.withCmdErr_withCmdErr (e e' : CmdErr) : (s.withCmdErr e).withCmdErr e' = s.withCmdErr e' := rfl
@[simp] theorem State.withPort_withPort (p p' : List PortInput) : (s.withPort p).withPort p' = s.withPort p' := rfl
@[simp] theorem State.emitEnc_nil : s.emitEnc [] = s := by cases s; simp [State.emitEnc]
@[simp] theorem State.emitDec_nil : s.emitDec [] = s := by cases s; simp [State.emitDec]

end Sys2Proof.Machine
end

