-- ==== Sys2Proof/Laws/Ops.lean ====
section
/-! SUPPORT. What each shared operation of the machine can do, said once: frames, the command-error record, validation, the
lookups, and the step. -/

namespace Sys2Proof.Machine

/-! ## Frames -/

theorem keepsAllBut_iff (parts : List Part) (s t : State) : keepsAllBut parts s t ↔
    ((.alpha ∈ parts ∨ t.alpha = s.alpha) ∧ (.staging ∈ parts ∨ t.staging = s.staging)
    ∧ (.enc ∈ parts ∨ t.enc = s.enc) ∧ (.dec ∈ parts ∨ t.dec = s.dec)
    ∧ (.lenOut ∈ parts ∨ t.lenOut = s.lenOut) ∧ (.alphaErr ∈ parts ∨ t.alphaErr = s.alphaErr)
    ∧ (.cmdErr ∈ parts ∨ t.cmdErr = s.cmdErr) ∧ (.encOut ∈ parts ∨ t.encOut = s.encOut)
    ∧ (.decOut ∈ parts ∨ t.decOut = s.decOut) ∧ (.port ∈ parts ∨ t.port = s.port)) := by
  simp only [or_iff_not_imp_left]
  constructor
  · intro h
    exact ⟨h .alpha, h .staging, h .enc, h .dec, h .lenOut, h .alphaErr, h .cmdErr, h .encOut, h .decOut, h .port⟩
  · rintro ⟨h₁, h₂, h₃, h₄, h₅, h₆, h₇, h₈, h₉, h₁₀⟩ p hp
    cases p with
    | alpha => exact h₁ hp
    | staging => exact h₂ hp
    | enc => exact h₃ hp
    | dec => exact h₄ hp
    | lenOut => exact h₅ hp
    | alphaErr => exact h₆ hp
    | cmdErr => exact h₇ hp
    | encOut => exact h₈ hp
    | decOut => exact h₉ hp
    | port => exact h₁₀ hp

theorem keepsAllBut_refl (parts : List Part) (s : State) : keepsAllBut parts s s := by
  intro p _
  cases p <;> rfl

theorem keepsAllBut_trans {parts : List Part} {s t u : State} (h : keepsAllBut parts s t) (g : keepsAllBut parts t u) :
    keepsAllBut parts s u := by
  intro p hp
  have a := h p hp
  have b := g p hp
  cases p <;> exact b.trans a

theorem keepsAllBut_mono {small large : List Part} {s t : State} (h : keepsAllBut small s t)
    (sub : ∀ p ∈ small, p ∈ large) : keepsAllBut large s t :=
  fun p hp => h p fun hs => hp (sub p hs)

/-! ## The command-error record (60_exceptions.md R212) -/

variable (cause : CmdCause) (w : Word) (s : State)

/-- Raising writes the record as R212 says. -/
@[simp] theorem raiseCmdError_cmdErr : (raiseCmdError cause w s).cmdErr = recorded s cause w := by
  unfold raiseCmdError recorded
  split <;> simp [*]

/-- Raising writes nothing else. -/
theorem raiseCmdError_frame : keepsAllBut [.cmdErr] s (raiseCmdError cause w s) := by
  rw [keepsAllBut_iff]
  unfold raiseCmdError
  split <;> simp

@[simp] theorem raiseCmdError_alpha : (raiseCmdError cause w s).alpha = s.alpha :=
  raiseCmdError_frame cause w s .alpha (by decide)
@[simp] theorem raiseCmdError_staging : (raiseCmdError cause w s).staging = s.staging :=
  raiseCmdError_frame cause w s .staging (by decide)
@[simp] theorem raiseCmdError_enc : (raiseCmdError cause w s).enc = s.enc :=
  raiseCmdError_frame cause w s .enc (by decide)
@[simp] theorem raiseCmdError_dec : (raiseCmdError cause w s).dec = s.dec :=
  raiseCmdError_frame cause w s .dec (by decide)
@[simp] theorem raiseCmdError_lenOut : (raiseCmdError cause w s).lenOut = s.lenOut :=
  raiseCmdError_frame cause w s .lenOut (by decide)
@[simp] theorem raiseCmdError_alphaErr : (raiseCmdError cause w s).alphaErr = s.alphaErr :=
  raiseCmdError_frame cause w s .alphaErr (by decide)
@[simp] theorem raiseCmdError_encOut : (raiseCmdError cause w s).encOut = s.encOut :=
  raiseCmdError_frame cause w s .encOut (by decide)
@[simp] theorem raiseCmdError_decOut : (raiseCmdError cause w s).decOut = s.decOut :=
  raiseCmdError_frame cause w s .decOut (by decide)
@[simp] theorem raiseCmdError_port : (raiseCmdError cause w s).port = s.port :=
  raiseCmdError_frame cause w s .port (by decide)

/-- The BUSY condition is that a session is open (R213). -/
theorem busy_iff : busy s = true ↔ sessionOpen s := by
  simp [busy, sessionOpen]

theorem busy_eq_false_iff : busy s = false ↔ ¬ sessionOpen s := by
  rw [← busy_iff, Bool.not_eq_true]

/-! ## Lookups -/

theorem fwdLookup_eq (a : AlphabetUnit) (v : Value) : fwdLookup a v = a.fwd.get v.toFin := rfl

/-- An entry that is a value is looked up as that value (43_decoder.md R172). -/
theorem revLookup_value {a : AlphabetUnit} {d : Byte} {v : Value} (h : a.rev.get d.toFin = v.setWidth 8) :
    revLookup a d = some v := by
  have : ∀ v : Value, v.setWidth 8 ≠ invalidEntry ∧ (v.setWidth 8 : Byte).setWidth 5 = v := by decide
  simp only [revLookup, h]
  rw [if_neg (this v).1, (this v).2]

/-- An INVALID entry has no value. -/
theorem revLookup_invalid {a : AlphabetUnit} {d : Byte} (h : a.rev.get d.toFin = 0xFF) : revLookup a d = none := by
  simp [revLookup, h, invalidEntry]

/-! ## Steps -/

theorem step_nil {s : State} (h : s.port = []) : step s = .next s := by
  simp only [step, takeInput, h]

/-- A step takes the oldest input. -/
theorem step_cons {s : State} {x : PortInput} {rest : List PortInput} (h : s.port = x :: rest) :
    step s = acceptInput x (s.withPort rest) := by
  simp only [step, takeInput, h]

/-- Running k and then m steps. -/
theorem runSteps_add {k m : Nat} {s t : State} (h : runSteps k s = .next t) : runSteps (k + m) s = runSteps m t := by
  induction k generalizing s with
  | zero => simp only [runSteps] at h; cases h; simp
  | succ k ih =>
    rw [Nat.succ_add, runSteps]
    rw [runSteps] at h
    split at h
    · exact ih h
    · cases h
    · cases h

end Sys2Proof.Machine
end

