-- ==== Sys2Proof/Laws/Tables.lean ====
section
/-! SUPPORT. The tables: reading after writing, and what BuildTables (40_alphabet.md R101) leaves at every index. -/

namespace Sys2Proof.Machine

theorem Table.get_eq {n : Nat} (t : Table n) (i : Fin n) (h : i.val < t.cells.length) : t.get i = t.cells[i.val] := rfl

/-- Two tables with the same entries are equal. -/
theorem Table.ext_get {n : Nat} {t u : Table n} (h : ∀ i, t.get i = u.get i) : t = u := by
  obtain ⟨c, hc⟩ := t
  obtain ⟨d, hd⟩ := u
  have : c = d := by
    apply List.ext_getElem (by rw [hc, hd])
    intro i h₁ h₂
    exact h ⟨i, hc ▸ h₁⟩
  subst this
  rfl

/-- Reading after writing: the entry written, and every other entry as before. -/
theorem Table.get_set {n : Nat} (t : Table n) (i j : Fin n) (b : Byte) :
    (t.set i b).get j = if j = i then b else t.get j := by
  simp only [Table.get, Table.set, List.getElem_set, Fin.ext_iff, eq_comm]

@[simp] theorem Table.get_set_self {n : Nat} (t : Table n) (i : Fin n) (b : Byte) : (t.set i b).get i = b := by
  rw [Table.get_set, if_pos rfl]

theorem Table.get_set_of_ne {n : Nat} (t : Table n) {i j : Fin n} (b : Byte) (h : j ≠ i) :
    (t.set i b).get j = t.get j := by
  rw [Table.get_set, if_neg h]

@[simp] theorem Table.get_fill {n : Nat} (b : Byte) (i : Fin n) : (Table.fill n b).get i = b := by
  simp [Table.get, Table.fill]

/-- What the inversion loop leaves at one index: the position of the last entry equal to it, or what was there. -/
theorem invertInto_get_of_notMem (rev : Table 256) (i : Nat) (l : List Byte) (b : Byte) (h : b ∉ l) :
    (invertInto rev i l).get b.toFin = rev.get b.toFin := by
  induction l generalizing rev i with
  | nil => rfl
  | cons c l ih =>
    obtain ⟨hc, hl⟩ := not_or.mp fun e => h (List.mem_cons.mpr e)
    rw [invertInto, ih _ _ hl, Table.get_set_of_ne]
    exact fun e => hc (BitVec.eq_of_toFin_eq e)

/-- Where the entries still to be written are distinct, each ends with its own position. -/
theorem invertInto_get_of_nodup (rev : Table 256) (i : Nat) (l : List Byte) (hl : l.Nodup) (k : Nat)
    (hk : k < l.length) : (invertInto rev i l).get (l[k]).toFin = BitVec.ofNat 8 (i + k) := by
  induction l generalizing rev i k with
  | nil => simp at hk
  | cons c l ih =>
    obtain ⟨hc, hl⟩ := List.nodup_cons.mp hl
    cases k with
    | zero => simp [invertInto, invertInto_get_of_notMem _ _ _ _ hc]
    | succ k =>
      simp only [invertInto, List.getElem_cons_succ]
      rw [ih _ _ hl k (by simpa using hk)]
      congr 1
      omega

/-- The cells of a table with distinct entries have no repeats. -/
theorem Table.nodup_of_injective {t : Table 32} (h : ∀ i j, t.get i = t.get j → i = j) : t.cells.Nodup := by
  rw [List.nodup_iff_getElem?_ne_getElem?]
  intro i j hij hj e
  have hi : i < 32 := by have := t.size; omega
  have hj' : j < 32 := by have := t.size; omega
  rw [List.getElem?_eq_getElem (by omega), List.getElem?_eq_getElem hj, Option.some.injEq] at e
  have := h ⟨i, hi⟩ ⟨j, hj'⟩ e
  simp only [Fin.mk.injEq] at this
  omega

/-- Every entry of a table is one of its cells, and the other way round. -/
theorem Table.mem_cells {n : Nat} (t : Table n) (b : Byte) : b ∈ t.cells ↔ ∃ i, t.get i = b := by
  rw [List.mem_iff_getElem]
  constructor
  · rintro ⟨i, hi, rfl⟩
    exact ⟨⟨i, t.size ▸ hi⟩, rfl⟩
  · rintro ⟨i, rfl⟩
    exact ⟨i.val, t.size.symm ▸ i.isLt, rfl⟩

/-- BuildTables at a symbol of the alphabet: its value (R101). -/
theorem buildRev_symbol {t : Table 32} (h : ∀ i j, t.get i = t.get j → i = j) (i : Fin 32) :
    (buildRev t).get (t.get i).toFin = BitVec.ofNat 8 i.val := by
  have hi : i.val < t.cells.length := t.size.symm ▸ i.isLt
  have := invertInto_get_of_nodup (Table.fill 256 invalidEntry) 0 t.cells (Table.nodup_of_injective h) i.val hi
  rw [Nat.zero_add] at this
  exact this

/-- BuildTables at any other byte: INVALID (R101). -/
theorem buildRev_other {t : Table 32} {b : Byte} (h : ∀ i, t.get i ≠ b) :
    (buildRev t).get b.toFin = invalidEntry := by
  rw [buildRev, invertInto_get_of_notMem, Table.get_fill]
  rw [Table.mem_cells]
  exact fun ⟨i, e⟩ => h i e

/-- Installing a string of distinct bytes leaves tables that are inverse of each other (10_state.md R26). -/
theorem installAlphabet_inverse {t : Table 32} (h : ∀ i j, t.get i = t.get j → i = j) (o : Order) (src : AlphaSrc) :
    InverseTables (installAlphabet t o src) :=
  ⟨buildRev_symbol h, fun _ hb => buildRev_other hb⟩

end Sys2Proof.Machine
end

