-- ==== Sys2Proof/Laws/Alphabet.lean ====
section
/-! SUPPORT. The alphabet unit: validation (40_alphabet.md R106) and staging (R104), each said once. -/

namespace Sys2Proof.Machine

/-- One position passes the checks of R106: printable, and no earlier equal byte. -/
theorem checkPosition_none {stg : Table 32} {j : Fin 32} : checkPosition stg j = none ↔
    (0x20 ≤ (stg.get j).toNat ∧ (stg.get j).toNat ≤ 0x7E) ∧ ∀ i, i < j → stg.get i ≠ stg.get j := by
  unfold checkPosition
  split
  · rename_i h
    simp [printable] at h
    simp
    omega
  · rename_i h
    simp [printable] at h
    split
    · rename_i g
      simp at g
      obtain ⟨i, hi, e⟩ := g
      simp
      exact fun _ _ => ⟨i, hi, e⟩
    · rename_i g
      simp at g
      simp [h]
      exact g

/-- A string that passes has the right length and is a legal alphabet. -/
theorem validate_none {stg : Table 32} {len : BitVec 6} (h : validate stg len = none) :
    len = 32 ∧ LegalAlphabet stg := by
  unfold validate at h
  split at h
  · cases h
  · rename_i hl
    rw [List.findSome?_eq_none_iff] at h
    have ok := fun j => checkPosition_none.mp (h j (List.mem_finRange j))
    refine ⟨by simpa using hl, fun j => (ok j).1, fun i j e => ?_⟩
    rcases lt_trichotomy i j with hij | hij | hij
    · exact absurd e ((ok j).2 i hij)
    · exact hij
    · exact absurd e.symm ((ok i).2 j hij)

/-- A legal alphabet of the right length passes. -/
theorem validate_of_legal {stg : Table 32} (h : LegalAlphabet stg) : validate stg 32 = none := by
  unfold validate
  rw [if_neg (by simp), List.findSome?_eq_none_iff]
  intro j _
  rw [checkPosition_none]
  exact ⟨h.printable j, fun i hi e => absurd (h.distinct i j e) (Fin.ne_of_lt hi)⟩

/-- Each error the checks of one position report fits its record. -/
theorem checkPosition_fits {stg : Table 32} {j : Fin 32} {e : AlphaErr} (h : checkPosition stg j = some e) :
    alphaErrFits e := by
  unfold checkPosition at h
  split at h
  · rename_i p
    cases h
    simp [printable] at p
    simp [alphaErrFits]
    omega
  · rename_i p
    split at h
    · cases h
      simp [printable] at p
      simp [alphaErrFits]
      omega
    · cases h

/-- Each error a validation reports fits its record. -/
theorem validate_fits {stg : Table 32} {len : BitVec 6} {e : AlphaErr} (h : validate stg len = some e) :
    alphaErrFits e := by
  unfold validate at h
  split at h
  · cases h
    exact ⟨rfl, rfl⟩
  · obtain ⟨j, _, hj⟩ := List.exists_of_findSome?_eq_some h
    exact checkPosition_fits hj

/-- The three cases of one staged byte (R104). -/
theorem stageByte_cases (g : Staging) (d : Byte) :
    (∃ h : g.len.toNat < 32, stageByte g d = { g with bytes := g.bytes.set ⟨g.len.toNat, h⟩ d, len := g.len + 1 })
    ∨ (g.len = 32 ∧ stageByte g d = { g with len := 33 })
    ∨ (32 < g.len.toNat ∧ stageByte g d = g) := by
  unfold stageByte
  split
  · exact .inl ⟨‹_›, rfl⟩
  · split
    · exact .inr (.inl ⟨‹_›, rfl⟩)
    · rename_i h e
      refine .inr (.inr ⟨?_, rfl⟩)
      have : g.len.toNat ≠ 32 := fun h => e (BitVec.eq_of_toNat_eq h)
      omega

/-- STG_LEN stays within 0..33 (10_state.md R27). -/
theorem stageByte_len_le {g : Staging} {d : Byte} (h : g.len.toNat ≤ 33) : (stageByte g d).len.toNat ≤ 33 := by
  rcases stageByte_cases g d with ⟨hl, e⟩ | ⟨-, e⟩ | ⟨-, e⟩ <;> rw [e]
  · rw [BitVec.toNat_add]
    have := Nat.mod_le (g.len.toNat + BitVec.toNat 1#6) (2 ^ 6)
    simp at this ⊢
    omega
  · simp
  · exact h

end Sys2Proof.Machine
end

