-- ==== Sys2Proof/Laws/Decode.lean ====
section
/-! SUPPORT. Words and fields: bit by bit lemmas of the fields of 30_encoding.md R81, and what it means to match a row of
R84 in terms of fields. -/

namespace Sys2Proof

/-- Bit k of a word made of fields. -/
theorem getLsbD_wordOfRaw (r : RawCommand) (k : Nat) : (wordOfRaw r).getLsbD k
    = if k < 24 then r.imm.getLsbD k else if k < 28 then r.sub.getLsbD (k - 24) else r.opc.getLsbD (k - 28) := by
  simp only [wordOfRaw, BitVec.getLsbD_append]
  rcases Nat.lt_or_ge k 24 with h | h
  · simp [h]
  · rw [if_neg (by omega)]
    rcases Nat.lt_or_ge k 28 with h' | h'
    · simp [show ¬ k < 24 by omega, show k - 24 < 4 by omega, h']
    · simp [show ¬ k < 24 by omega, show ¬ k - 24 < 4 by omega, show ¬ k < 28 by omega]
      congr 1

/-- A word holds the fields it is made of (R81). -/
@[simp] theorem rawOfWord_wordOfRaw (r : RawCommand) : rawOfWord (wordOfRaw r) = r := by
  obtain ⟨o, u, m⟩ := r
  simp only [rawOfWord, opcField, subField, immField, RawCommand.mk.injEq]
  refine ⟨?_, ?_, ?_⟩ <;> ext k hk <;> simp only [BitVec.getElem_extractLsb', getLsbD_wordOfRaw]
  · rw [if_neg (by omega), if_neg (by omega)]; simp [hk]
  · rw [if_neg (by omega), if_pos (by omega)]; simp [hk]
  · rw [if_pos (by omega)]; simp [hk]

/-- A word is made of its fields (R81). -/
@[simp] theorem wordOfRaw_rawOfWord (w : Word) : wordOfRaw (rawOfWord w) = w := by
  apply BitVec.eq_of_getLsbD_eq
  intro k hk
  rw [getLsbD_wordOfRaw]
  simp only [rawOfWord, opcField, subField, immField, BitVec.getLsbD_extractLsb']
  split
  · simp [*]
  · split
    · simp [show k - 24 < 4 by omega, show 24 + (k - 24) = k by omega]
    · simp [show k - 28 < 4 by omega, show 28 + (k - 28) = k by omega]

/-- Two words are equal when their fields are. -/
theorem word_ext {v w : Word} (h : rawOfWord v = rawOfWord w) : v = w := by
  rw [← wordOfRaw_rawOfWord v, h, wordOfRaw_rawOfWord]

/-- Masking acts on the fields one by one. -/
theorem rawOfWord_and (v w : Word) : rawOfWord (v &&& w)
    = ⟨opcField v &&& opcField w, subField v &&& subField w, immField v &&& immField w⟩ := by
  simp only [rawOfWord, opcField, subField, immField, RawCommand.mk.injEq]
  refine ⟨?_, ?_, ?_⟩ <;> (ext k hk; simp)

/-- Matching a row of R84, field by field. -/
theorem and_eq_iff_fields (w mask pattern : Word) : w &&& mask = pattern
    ↔ opcField w &&& opcField mask = opcField pattern ∧ subField w &&& subField mask = subField pattern
      ∧ immField w &&& immField mask = immField pattern := by
  constructor
  · rintro rfl
    have h := rawOfWord_and w mask
    simp only [rawOfWord, RawCommand.mk.injEq] at h
    exact ⟨h.1.symm, h.2.1.symm, h.2.2.symm⟩
  · rintro ⟨h₁, h₂, h₃⟩
    apply word_ext
    rw [rawOfWord_and, h₁, h₂, h₃]; rfl

/-- The mask of the byte commands' immediate, bit by bit. -/
theorem byteMask_getLsbD : ∀ k : Fin 24, (0xFFFF00#24).getLsbD k = decide (8 ≤ k.val) := by decide

/-- Masking IMM[23:8] gives 0 exactly when those bits are 0 (R81). -/
theorem imm_and_byteMask (m : BitVec 24) : m &&& 0xFFFF00#24 = 0#24 ↔ m.extractLsb' 8 16 = 0#16 := by
  constructor
  · intro h
    ext k hk
    have := congrArg (·.getLsbD (8 + k)) h
    simpa [byteMask_getLsbD ⟨8 + k, by omega⟩] using this
  · intro h
    ext k hk
    by_cases h8 : 8 ≤ k
    · have := congrArg (·.getLsbD (k - 8)) h
      simp [show k - 8 < 16 by omega, show 8 + (k - 8) = k by omega, BitVec.getLsbD_eq_getElem hk] at this
      simp [this]
    · rw [BitVec.getElem_and, ← BitVec.getLsbD_eq_getElem (x := 0xFFFF00#24), byteMask_getLsbD ⟨k, hk⟩]
      simp [h8]

/-- Masking SUB[3:1] (R81). -/
theorem sub_and_orderMask : ∀ u : BitVec 4, u &&& 0xE#4 = 0#4 ↔ u.extractLsb' 1 3 = 0#3 := by decide

theorem and_allOnes24 (m : BitVec 24) : m &&& 0xFFFFFF#24 = m := by
  rw [show (0xFFFFFF#24) = BitVec.allOnes 24 by decide, BitVec.and_allOnes]

theorem and_allOnes4 (u : BitVec 4) : u &&& 0xF#4 = u := by
  rw [show (0xF#4) = BitVec.allOnes 4 by decide, BitVec.and_allOnes]

/-- Decoding said on the fields of a word instead of on masks: what `decode` is to a proof (`decode_eq_fields`). -/
def decodeFields (r : RawCommand) : Decoded :=
  if r.opc = 0x1 ∧ r.sub.extractLsb' 1 3 = 0 ∧ r.imm = 0 then .instr (.alphaBegin (orderOfBit (r.sub.getLsbD 0)))
  else if r.opc = 0x2 ∧ r.sub = 0 ∧ r.imm.extractLsb' 8 16 = 0 then .instr (.alphaByte (r.imm.extractLsb' 0 8))
  else if r.opc = 0x3 ∧ r.sub = 0 ∧ r.imm = 0 then .instr .alphaCommit
  else if r.opc = 0x4 ∧ r.sub = 0 ∧ r.imm = 0 then .instr .alphaPresetZbase32
  else if r.opc = 0x4 ∧ r.sub = 1 ∧ r.imm = 0 then .instr .alphaPresetRfc4648
  else if r.opc = 0x4 ∧ r.sub = 2 ∧ r.imm = 0 then .instr .alphaPresetBech32
  else if r.opc = 0x5 ∧ r.sub = 0 ∧ r.imm = 0 then .instr .encStart
  else if r.opc = 0x6 ∧ r.sub = 0 ∧ r.imm.extractLsb' 8 16 = 0 then .instr (.encByte (r.imm.extractLsb' 0 8))
  else if r.opc = 0x7 ∧ r.sub = 0 ∧ r.imm = 0 then .instr .encFinish
  else if r.opc = 0x8 ∧ r.sub = 0 ∧ r.imm = 0 then .instr .decStart
  else if r.opc = 0x9 ∧ r.sub = 0 ∧ r.imm.extractLsb' 8 16 = 0 then .instr (.decSym (r.imm.extractLsb' 0 8))
  else if r.opc = 0xA ∧ r.sub = 0 ∧ r.imm = 0 then .instr .decFinish
  else if r.opc = 0xB ∧ r.sub = 0 then .instr (.lenEnc r.imm)
  else if r.opc = 0xC ∧ r.sub = 0 then .instr (.lenDec r.imm)
  else if r.opc = 0xD ∧ r.sub = 0 ∧ r.imm = 0 then .instr .clrErr
  else .illegal

/-- Decoding by mask and match (R86) is decoding by fields. -/
theorem decode_eq_fields (w : Word) : decode w = decodeFields (rawOfWord w) := by
  simp only [decode, opcodeMap, decodeRows, OpcodeRow.accepts, beq_iff_eq, and_eq_iff_fields, opcField, subField,
    immField, BitVec.reduceExtractLsb', and_allOnes4, and_allOnes24, imm_and_byteMask, sub_and_orderMask,
    BitVec.and_zero, and_true]
  rfl

end Sys2Proof
end

