-- ==== Sys2Proof/Laws/Decoder.lean ====
section
/-! SUPPORT. The decoder's accumulator steps in terms of plain numbers (43_decoder.md R176, R177), and the width they keep
(10_state.md R36). -/

namespace Sys2Proof.Machine

variable {acc : BitVec 12} {nbits : BitVec 4} {v : Value}

/-- The Normal-order step keeps the accumulator within its pending bits, at most 7 of them. -/
theorem accNormal_width (h : acc.toNat < 2 ^ nbits.toNat) (most : nbits.toNat ≤ 7) :
    (accNormal acc nbits v).acc.toNat < 2 ^ (accNormal acc nbits v).nbits.toNat
    ∧ (accNormal acc nbits v).nbits.toNat ≤ 7 := by
  have hv := v.isLt
  simp only [accNormal]
  split
  · simp only [BitVec.toNat_ofNat]
    rw [Nat.mod_eq_of_lt (show nbits.toNat + 5 - 8 < 2 ^ 4 by omega)]
    exact ⟨Nat.lt_of_le_of_lt (Nat.mod_le _ _) (Nat.mod_lt _ (Nat.two_pow_pos _)), by omega⟩
  · simp only [BitVec.toNat_ofNat]
    rw [Nat.mod_eq_of_lt (show nbits.toNat + 5 < 2 ^ 4 by omega)]
    refine ⟨Nat.lt_of_le_of_lt (Nat.mod_le _ _) ?_, by omega⟩
    rw [← Nat.shiftLeft_add_eq_or_of_lt hv, Nat.shiftLeft_eq, pow_add]
    have := Nat.mul_le_mul_right (2 ^ 5) h
    omega

/-- The Inverse-order step keeps the accumulator within its pending bits, at most 12 of them. -/
theorem accInverse_width (h : acc.toNat < 2 ^ nbits.toNat) (most : nbits.toNat ≤ 12) :
    (accInverse acc nbits v).acc.toNat < 2 ^ (accInverse acc nbits v).nbits.toNat
    ∧ (accInverse acc nbits v).nbits.toNat ≤ 12 := by
  have hv := v.isLt
  have high : ∀ k, v.toNat <<< k < 2 ^ (k + 5) := fun k => by
    rw [Nat.shiftLeft_eq, pow_add, mul_comm]
    exact Nat.mul_lt_mul_of_pos_left hv (Nat.two_pow_pos _)
  simp only [accInverse]
  split
  · simp only [BitVec.toNat_ofNat]
    rw [Nat.mod_eq_of_lt (show nbits.toNat - 8 + 5 < 2 ^ 4 by omega)]
    refine ⟨Nat.lt_of_le_of_lt (Nat.mod_le _ _) (Nat.or_lt_two_pow ?_ (high _)), by omega⟩
    rw [Nat.shiftRight_eq_div_pow, Nat.div_lt_iff_lt_mul (Nat.two_pow_pos _), ← pow_add]
    exact lt_of_lt_of_le h (Nat.pow_le_pow_right (by omega) (by omega))
  · simp only [BitVec.toNat_ofNat]
    rw [Nat.mod_eq_of_lt (show nbits.toNat + 5 < 2 ^ 4 by omega)]
    refine ⟨Nat.lt_of_le_of_lt (Nat.mod_le _ _) (Nat.or_lt_two_pow ?_ (high _)), by omega⟩
    exact lt_of_lt_of_le h (Nat.pow_le_pow_right (by omega) (by omega))

end Sys2Proof.Machine
end

