-- ==== Sys2Proof/Laws/Encoder.lean ====
section
/-! SUPPORT. The encoder's sub-case: how many values one byte yields, and the width of the carry it leaves (42_encoder.md
R142). -/

namespace Sys2Proof.Machine

/-- The bits carried out are those the next phase carries in (R142). -/
theorem carryOutBits_eq (p : Fin 5) : carryOutBits p = carryBits (nextPhase p) := by
  revert p
  decide

/-- One byte of phase p yields S values. -/
@[simp] theorem peel_values_length (o : Order) (p : Fin 5) (c : BitVec 4) (d : Byte) :
    (peel o p c d).values.length = symbolCount p := by
  cases o <;> simp [peel, peelNormal, peelInverse]

/-- The new carry has the next phase's width (10_state.md R30, R32). -/
theorem peel_carry_lt (o : Order) (p : Fin 5) (c : BitVec 4) (d : Byte) :
    (peel o p c d).carry.toNat < 2 ^ carryBits (nextPhase p) := by
  rw [← carryOutBits_eq]
  cases o with
  | normal => exact Nat.lt_of_le_of_lt (Nat.mod_le _ _) (Nat.mod_lt _ (Nat.two_pow_pos _))
  | inverse =>
    refine Nat.lt_of_le_of_lt (Nat.mod_le _ _) ?_
    have width : carryOutBits p + 5 * symbolCount p = carryBits p + 8 := by revert p; decide
    rw [Nat.shiftRight_eq_div_pow, Nat.div_lt_iff_lt_mul (Nat.two_pow_pos _), ← pow_add, width]
    apply Nat.or_lt_two_pow
    · exact lt_of_lt_of_le (Nat.mod_lt _ (Nat.two_pow_pos _)) (Nat.pow_le_pow_right (by omega) (by omega))
    · rw [Nat.shiftLeft_eq, pow_add, mul_comm]
      exact Nat.mul_lt_mul_of_pos_left d.isLt (Nat.two_pow_pos _)

end Sys2Proof.Machine
end

