-- ==== Sys2Proof/Laws/Flags.lean ====
section
/-! SUPPORT. Reading a field back out of a packed register word. -/

namespace Sys2Proof.Machine

/-- A bit of a placed field: the field's bit, and 0 outside the field. -/
@[simp] theorem place_getLsbD {n : Nat} (lo : Nat) (x : BitVec n) (k : Nat) :
    (place lo x).getLsbD k = (decide (k < 32) && (decide (lo ≤ k) && x.getLsbD (k - lo))) := by
  rcases Nat.lt_or_ge k 32 with h | h
  · rcases Nat.lt_or_ge k lo with h' | h'
    · simp [place, h', show ¬ lo ≤ k by omega]
    · simp [place, h, h', show ¬ k < lo by omega]
  · simp [place, show ¬ k < 32 by omega]

@[simp] theorem place_getElem {n : Nat} (lo : Nat) (x : BitVec n) (k : Nat) (h : k < 32) :
    (place lo x)[k] = (decide (lo ≤ k) && x.getLsbD (k - lo)) := by
  rw [← BitVec.getLsbD_eq_getElem, place_getLsbD, decide_eq_true h, Bool.true_and]

end Sys2Proof.Machine
end

