-- ==== Sys2Proof/Laws/PerInstr.lean ====
section
/-! SUPPORT. The family EncodedFields: the word of a command carries exactly the command's fields (30_encoding.md R81), and they
pass the field check of R85. One lemma per constructor. -/

namespace Sys2Proof.Laws.EncodedFields

/-- What the family says of a command. -/
def Statement (i : Instr) : Prop := rawOfWord (encode i) = ⟨i.opc, i.sub, i.imm⟩ ∧ i.wf = true

theorem of_wf {i : Instr} (h : i.wf = true) : Statement i := ⟨rawOfWord_wordOfRaw i.raw, h⟩

/-- A byte operand leaves IMM[23:8] zero (R81, R83). -/
theorem byte_imm_high (d : Byte) : (d.setWidth 24).extractLsb' 8 16 = 0#16 := by
  ext k hk
  simp

theorem alphaBegin (o : Order) : Statement (.alphaBegin o) := of_wf (by cases o <;> decide)

theorem alphaByte (d : Byte) : Statement (.alphaByte d) :=
  of_wf (by simp [Instr.wf, Instr.raw, Instr.opc, Instr.sub, Instr.imm, RawCommand.wf, RawCommand.opcOk,
    RawCommand.subOk, RawCommand.immOk, byte_imm_high])

theorem alphaCommit : Statement (.alphaCommit) := of_wf rfl

theorem alphaPresetZbase32 : Statement (.alphaPresetZbase32) := of_wf rfl

theorem alphaPresetRfc4648 : Statement (.alphaPresetRfc4648) := of_wf rfl

theorem alphaPresetBech32 : Statement (.alphaPresetBech32) := of_wf rfl

theorem encStart : Statement (.encStart) := of_wf rfl

theorem encByte (d : Byte) : Statement (.encByte d) :=
  of_wf (by simp [Instr.wf, Instr.raw, Instr.opc, Instr.sub, Instr.imm, RawCommand.wf, RawCommand.opcOk,
    RawCommand.subOk, RawCommand.immOk, byte_imm_high])

theorem encFinish : Statement (.encFinish) := of_wf rfl

theorem decStart : Statement (.decStart) := of_wf rfl

theorem decSym (d : Byte) : Statement (.decSym d) :=
  of_wf (by simp [Instr.wf, Instr.raw, Instr.opc, Instr.sub, Instr.imm, RawCommand.wf, RawCommand.opcOk,
    RawCommand.subOk, RawCommand.immOk, byte_imm_high])

theorem decFinish : Statement (.decFinish) := of_wf rfl

theorem lenEnc (n : Length) : Statement (.lenEnc n) := of_wf rfl

theorem lenDec (m : Length) : Statement (.lenDec m) := of_wf rfl

theorem clrErr : Statement (.clrErr) := of_wf rfl

end Sys2Proof.Laws.EncodedFields
end

