-- ==== Sys2Proof/Tests/Slice0.lean ====
section
/-! SUPPORT. The model's own tests. Expected values come from the spec: words written bit by bit from 30_encoding.md R84, results
from 95_test_vectors.md (the id of the vector stands beside each test). At most two tests a command, one step each. Then, for
every statement of Obligations.lean that has hypotheses, a witness that meets them all, clause by clause. -/

namespace Sys2Proof.Tests

open Sys2Proof Sys2Proof.Machine

/-! ## The well-formedness check refuses -/

theorem test_wf_refuses_opcode : (⟨0x0, 0x0, 0⟩ : RawCommand).wf = false ∧ (⟨0xE, 0x0, 0⟩ : RawCommand).wf = false
    ∧ (⟨0xF, 0x0, 0⟩ : RawCommand).wf = false := by decide

theorem test_wf_refuses_order_bits : (⟨0x1, 0x2, 0⟩ : RawCommand).wf = false := by decide

theorem test_wf_refuses_preset_three : (⟨0x4, 0x3, 0⟩ : RawCommand).wf = false := by decide

theorem test_wf_refuses_sub_function : (⟨0xB, 0x1, 0⟩ : RawCommand).wf = false := by decide

theorem test_wf_refuses_wide_byte : (⟨0x6, 0x0, 0x100⟩ : RawCommand).wf = false := by decide

theorem test_wf_refuses_immediate : (⟨0xD, 0x0, 1⟩ : RawCommand).wf = false := by decide

theorem test_wf_accepts : (⟨0x1, 0x1, 0⟩ : RawCommand).wf = true ∧ (⟨0x4, 0x2, 0⟩ : RawCommand).wf = true
    ∧ (⟨0x6, 0x0, 0xFF⟩ : RawCommand).wf = true ∧ (⟨0xC, 0x0, 0xFFFFFF⟩ : RawCommand).wf = true := by decide

/-! ## Decoding, one word of every row bit by bit (R84) -/

theorem test_decode_alphaBegin : decode 0b0001_0001_0000_0000_0000_0000_0000_0000 = .instr (.alphaBegin .inverse)
    ∧ decode 0b0001_0000_0000_0000_0000_0000_0000_0000 = .instr (.alphaBegin .normal) := by decide

theorem test_decode_alphaByte : decode 0b0010_0000_0000_0000_0000_0000_0111_0100 = .instr (.alphaByte 0x74) := by decide

theorem test_decode_alphaCommit : decode 0b0011_0000_0000_0000_0000_0000_0000_0000 = .instr .alphaCommit := by decide

theorem test_decode_presets : decode 0b0100_0000_0000_0000_0000_0000_0000_0000 = .instr .alphaPresetZbase32
    ∧ decode 0b0100_0001_0000_0000_0000_0000_0000_0000 = .instr .alphaPresetRfc4648
    ∧ decode 0b0100_0010_0000_0000_0000_0000_0000_0000 = .instr .alphaPresetBech32 := by decide

theorem test_decode_encoder : decode 0b0101_0000_0000_0000_0000_0000_0000_0000 = .instr .encStart
    ∧ decode 0b0110_0000_0000_0000_0000_0000_1000_0001 = .instr (.encByte 0x81)
    ∧ decode 0b0111_0000_0000_0000_0000_0000_0000_0000 = .instr .encFinish := by decide

theorem test_decode_decoder : decode 0b1000_0000_0000_0000_0000_0000_0000_0000 = .instr .decStart
    ∧ decode 0b1001_0000_0000_0000_0000_0000_0110_0101 = .instr (.decSym 0x65)
    ∧ decode 0b1010_0000_0000_0000_0000_0000_0000_0000 = .instr .decFinish := by decide

theorem test_decode_lengths : decode 0b1011_0000_1000_0000_0000_0000_0000_0001 = .instr (.lenEnc 0x800001)
    ∧ decode 0b1100_0000_1111_1111_1111_1111_1111_1111 = .instr (.lenDec 0xFFFFFF) := by decide

theorem test_decode_clrErr : decode 0b1101_0000_0000_0000_0000_0000_0000_0000 = .instr .clrErr := by decide

/-- R85, and the vectors A17, E27, K1, K2, K4, K5. -/
theorem test_decode_illegal : decode 0x00000000 = .illegal ∧ decode 0xE0000000 = .illegal ∧ decode 0xF0000000 = .illegal
    ∧ decode 0x43000000 = .illegal ∧ decode 0x60000100 = .illegal ∧ decode 0xD0000001 = .illegal
    ∧ decode 0x12000000 = .illegal ∧ decode 0xB1000000 = .illegal := by decide

theorem test_decodeTableWord : decodeTableWord 32 0x90000065 = some (.decSym 0x65)
    ∧ decodeTableWord 32 0x43000000 = none := by decide

/-! ## One step of each command -/

/-- The state after one word. -/
def after (w : Word) (s : State) : State :=
  match step (s.withFetchWord 32 w.toNat) with
  | .next t => t
  | .fault _ => s
  | .refused _ => s

/-- An open encoder session. -/
def encoding (s : State) (phase : Fin 5) (carry : BitVec 4) : State :=
  s.withEnc { state := .active, phase := phase, carry := carry, pend := phase != 0, icnt := 0, ocnt := 0 }

/-- An open decoder session. -/
def decoding (s : State) (acc : BitVec 12) (nbits : BitVec 4) : State :=
  s.withDec { state := .active, acc := acc, nbits := nbits, icnt := 3, ocnt := 0, errOff := 0, errByte := 0 }

/-- A decoder session that failed. -/
def failed (s : State) : State :=
  s.withDec { state := .failed, acc := 0x065, nbits := 7, icnt := 3, ocnt := 1, errOff := 3, errByte := 0x21 }

/-- A staged string. -/
def staged (bytes : Table 32) (len : BitVec 6) : State :=
  State.reset.withStaging { bytes := bytes, len := len, order := .normal, loading := true }

/-- RFC4648 installed, written out by hand from the tables. -/
def rfc : State := State.reset.withAlpha (installAlphabet rfc4648Table .normal .rfc4648)

/-- A recorded command error. -/
def withError : State := State.reset.withCmdErr ⟨.illegalCmd, 0x00000000⟩

/-- The reset row of §2's STATUS, and A16, K7, K8. -/
theorem test_reset : regRead State.reset 0x000 = 0x00040 ∧ regRead State.reset 0x100 = 0x79
    ∧ regRead State.reset 0x11F = 0x39 ∧ regRead State.reset 0x108 = 0x65 ∧ regRead State.reset 0x279 = 0
    ∧ regRead State.reset 0x239 = 31 ∧ regRead State.reset 0x26C = 0xFF ∧ regRead State.reset 0x2FF = 0xFF := by
  decide +kernel

/-- K6. -/
theorem test_unlisted_indices : regRead State.reset 0x00E = 0 ∧ regRead State.reset 0x0FF = 0
    ∧ regRead State.reset 0x120 = 0 ∧ regRead State.reset 0x320 = 0 ∧ regRead State.reset 0xFFF = 0 := by
  decide +kernel

/-- R103's example. -/
theorem test_alphaBegin : (after 0x10000000 State.reset).staging.loading = true
    ∧ regRead (after 0x10000000 State.reset) 0x000 = 0x00050 := by decide +kernel

/-- K5. -/
theorem test_alphaBegin_sub : (after 0x12000000 State.reset).staging.loading = false
    ∧ (after 0x12000000 State.reset).cmdErr = ⟨.illegalCmd, 0x12000000⟩ := by decide +kernel

/-- R104's example, and the byte after the 32nd. -/
theorem test_alphaByte : regRead (after 0x20000074 (staged (Table.fill 32 0) 0)) 0x300 = 0x74
    ∧ regRead (after 0x20000074 (staged (Table.fill 32 0) 0)) 0x00D = 1
    ∧ regRead (after 0x20000074 (staged (Table.fill 32 0) 32)) 0x00D = 33
    ∧ regRead (after 0x20000074 (staged (Table.fill 32 0) 32)) 0x31F = 0 := by decide +kernel

/-- A10. -/
theorem test_alphaByte_sequence : regRead (after 0x20000061 State.reset) 0x00B = 4
    ∧ regRead (after 0x20000061 State.reset) 0x00C = 0x20000061
    ∧ regRead (after 0x20000061 State.reset) 0x00D = 0 := by decide +kernel

/-- A7 and A8 in kind: a legal string is installed. -/
theorem test_alphaCommit : regRead (after 0x30000000 (staged bech32Table 32)) 0x00A = 0
    ∧ regRead (after 0x30000000 (staged bech32Table 32)) 0x000 = 0x00180
    ∧ regRead (after 0x30000000 (staged bech32Table 32)) 0x230 = 15 := by decide +kernel

/-- A5: position 5 is reached before the duplicate at 9; and A1's word. -/
theorem test_alphaCommit_errors :
    regRead (after 0x30000000 (staged ((zbase32Table.set 5 0x7F).set 9 0x79) 32)) 0x00A = 0x00057F02
    ∧ regRead (after 0x30000000 (staged (zbase32Table.set 31 0x79) 32)) 0x00A = 0x001F7903
    ∧ regRead (after 0x30000000 (staged zbase32Table 8)) 0x00A = 0x00000001 := by decide +kernel

theorem test_alphaPresetZbase32 : regRead (after 0x40000000 rfc) 0x000 = 0x00040
    ∧ regRead (after 0x40000000 rfc) 0x100 = 0x79 ∧ regRead (after 0x40000000 rfc) 0x26C = 0xFF := by decide +kernel

/-- A14. -/
theorem test_alphaPresetRfc4648 : regRead (after 0x41000000 State.reset) 0x000 = 0x00080
    ∧ regRead (after 0x41000000 State.reset) 0x10D = 0x4E ∧ regRead (after 0x41000000 State.reset) 0x24E = 13
    ∧ regRead (after 0x41000000 State.reset) 0x26E = 0xFF := by decide +kernel

/-- A12. -/
theorem test_alphaPresetRfc4648_busy :
    (after 0x41000000 (encoding State.reset 0 0)).cmdErr = ⟨.busy, 0x41000000⟩
    ∧ (after 0x41000000 (encoding State.reset 0 0)).alpha.src = .zbase32 := by decide +kernel

/-- A15. -/
theorem test_alphaPresetBech32 : regRead (after 0x42000000 State.reset) 0x000 = 0x00100
    ∧ regRead (after 0x42000000 State.reset) 0x100 = 0x71 ∧ regRead (after 0x42000000 State.reset) 0x11F = 0x6C
    ∧ regRead (after 0x42000000 State.reset) 0x230 = 15 ∧ regRead (after 0x42000000 State.reset) 0x262 = 0xFF := by
  decide +kernel

/-- T1, first row; E25: a second start drops the carry. -/
theorem test_encStart : regRead (after 0x50000000 State.reset) 0x000 = 0x00041
    ∧ regRead (after 0x50000000 (encoding State.reset 1 3)) 0x003 = 0 := by decide +kernel

/-- T1, the rows of 'e' (phase 1) and 'l' (phase 3). -/
theorem test_encByte_inverse : (after 0x60000065 (encoding State.reset 1 3)).encOut = [0x6D, 0x33]
    ∧ regRead (after 0x60000065 (encoding State.reset 1 3)) 0x003 = 0x90
    ∧ (after 0x6000006C (encoding State.reset 3 6)).encOut = [0x67, 0x73]
    ∧ regRead (after 0x6000006C (encoding State.reset 3 6)) 0x003 = 0xA1 := by decide +kernel

/-- T2, the rows of 'e' (phase 1) and 'l' (phase 2). -/
theorem test_encByte_normal : (after 0x60000065 (encoding rfc 1 0)).encOut = [0x42, 0x53]
    ∧ regRead (after 0x60000065 (encoding rfc 1 0)) 0x000 = 0x01481
    ∧ (after 0x6000006C (encoding rfc 2 1)).encOut = [0x57]
    ∧ regRead (after 0x6000006C (encoding rfc 2 1)) 0x003 = 0xCC := by decide +kernel

/-- The last symbols of E5 and E8 in both orders, and of E1: a carry of value 0. -/
theorem test_encFinish : (after 0x70000000 (encoding State.reset 1 3)).encOut = [0x64]
    ∧ (after 0x70000000 (encoding rfc 1 1)).encOut = [0x45] ∧ (after 0x70000000 (encoding rfc 4 3)).encOut = [0x59]
    ∧ (after 0x70000000 (encoding State.reset 1 0)).encOut = [0x79]
    ∧ (after 0x70000000 (encoding State.reset 0 0)).encOut = [] := by decide +kernel

/-- E24. -/
theorem test_encFinish_sequence : regRead (after 0x70000000 State.reset) 0x00B = 2 := by decide +kernel

/-- D22. -/
theorem test_decStart : regRead (after 0x80000000 (failed State.reset)) 0x000 = 0x00044
    ∧ regRead (after 0x80000000 (failed State.reset)) 0x007 = 0
    ∧ regRead (after 0x80000000 (failed State.reset)) 0x008 = 0 := by decide +kernel

/-- T3, the row of '3'; D13: the lookup fails before the byte that is pending. -/
theorem test_decSym_inverse : (after 0x90000033 (decoding State.reset 0x168 10)).decOut = [0x68]
    ∧ regRead (after 0x90000033 (decoding State.reset 0x168 10)) 0x006 = 0x70065
    ∧ (after 0x90000021 (decoding State.reset 0x168 10)).decOut = []
    ∧ (after 0x90000021 (decoding State.reset 0x168 10)).dec.errByte = 0x21
    ∧ (after 0x90000021 (decoding State.reset 0x168 10)).dec.errOff = 3 := by decide +kernel

/-- T4, the rows of 'B' and 'W'. -/
theorem test_decSym_normal : (after 0x90000042 (decoding rfc 0x00D 5)).decOut = [0x68]
    ∧ regRead (after 0x90000042 (decoding rfc 0x00D 5)) 0x006 = 0x20001
    ∧ (after 0x90000057 (decoding rfc 0x032 7)).decOut = [0x65]
    ∧ regRead (after 0x90000057 (decoding rfc 0x032 7)) 0x006 = 0x40006 := by decide +kernel

/-- D5 (bits above bit 7 dropped) and D9 (DISCARD). -/
theorem test_decFinish : (after 0xA0000000 (decoding State.reset 0x3FF 10)).decOut = [0xFF]
    ∧ (after 0xA0000000 (decoding rfc 0x001 2)).decOut = []
    ∧ (after 0xA0000000 (decoding rfc 0x001 2)).dec.state = .done := by decide +kernel

/-- D21. -/
theorem test_decFinish_failed : (after 0xA0000000 (failed State.reset)).dec = (failed State.reset).dec
    ∧ (after 0xA0000000 (failed State.reset)).cmdErr.cause = .none := by decide +kernel

/-- §2.2. -/
theorem test_lenEnc : (after 0xB0000005 State.reset).lenOut = 9 ∧ (after 0xB0000000 State.reset).lenOut = 1
    ∧ (after 0xB0FFFFFF State.reset).lenOut = 26843545 := by decide +kernel

/-- §2.2. -/
theorem test_lenDec : (after 0xC000000D State.reset).lenOut = 10 ∧ (after 0xC0FFFFFF State.reset).lenOut = 10485762 := by
  decide +kernel

/-- K3; K1's and K2's record is what it clears. -/
theorem test_clrErr : regRead withError 0x000 = 0x20040 ∧ regRead (after 0xE0000000 withError) 0x00C = 0
    ∧ regRead (after 0xD0000000 withError) 0x000 = 0x00040 := by decide +kernel

/-! ## Witnesses: a concrete state and operands that meet each statement's hypotheses -/

/-- A state whose port holds these inputs. -/
def holding (inputs : List PortInput) (s : State) : State := s.withPort inputs

theorem legal_zbase32 : LegalAlphabet zbase32Table := ⟨by decide +kernel, by decide +kernel⟩

theorem reset_tables : InverseTables State.reset.alpha := installAlphabet_inverse legal_zbase32.distinct .inverse .zbase32

theorem rfc_tables : InverseTables rfc.alpha :=
  installAlphabet_inverse (t := rfc4648Table) (by decide +kernel) .normal .rfc4648

theorem witness_EncodeOfDecodedWord : decode 0x600000FF = .instr (.encByte 0xFF) := by decide

/-- One word of each row, an operand of all ones where the row has one, and a word of no row. -/
theorem witness_OpcodeMapIsComplete :
    (0x11000000 : Word) &&& 0xFEFFFFFF = 0x10000000 ∧ (0x200000FF : Word) &&& 0xFFFFFF00 = 0x20000000
    ∧ (0x30000000 : Word) &&& 0xFFFFFFFF = 0x30000000 ∧ (0x40000000 : Word) &&& 0xFFFFFFFF = 0x40000000
    ∧ (0x41000000 : Word) &&& 0xFFFFFFFF = 0x41000000 ∧ (0x42000000 : Word) &&& 0xFFFFFFFF = 0x42000000
    ∧ (0x50000000 : Word) &&& 0xFFFFFFFF = 0x50000000 ∧ (0x600000FF : Word) &&& 0xFFFFFF00 = 0x60000000
    ∧ (0x70000000 : Word) &&& 0xFFFFFFFF = 0x70000000 ∧ (0x80000000 : Word) &&& 0xFFFFFFFF = 0x80000000
    ∧ (0x900000FF : Word) &&& 0xFFFFFF00 = 0x90000000 ∧ (0xA0000000 : Word) &&& 0xFFFFFFFF = 0xA0000000
    ∧ (0xB0FFFFFF : Word) &&& 0xFF000000 = 0xB0000000 ∧ (0xC0FFFFFF : Word) &&& 0xFF000000 = 0xC0000000
    ∧ (0xD0000000 : Word) &&& 0xFFFFFFFF = 0xD0000000 ∧ ∀ r ∈ opcodeMap, (0x43000000 : Word) &&& r.mask ≠ r.pattern := by
  decide

theorem witness_StepRunsDecodedCommand :
    (holding [.command 0x600000FF, .reset] State.reset).port = .command 0x600000FF :: [.reset]
    ∧ decode 0x600000FF = .instr (.encByte 0xFF) := by decide

theorem witness_IdleBlockHoldsState : State.reset.port = [] := rfl

theorem witness_ResetInputGivesResetState :
    (holding [.reset, .command 0x50000000] (encoding rfc 1 3)).port = .reset :: [.command 0x50000000] := rfl

theorem witness_BuildTablesInverts : LegalAlphabet zbase32Table := legal_zbase32

/-- No load; then a load with 0, 31, 32 and 33 bytes received. -/
theorem witness_AlphaByteAppends : State.reset.staging.loading = false
    ∧ ((staged zbase32Table 0).staging.loading = true ∧ (staged zbase32Table 0).staging.len.toNat < 32)
    ∧ ((staged zbase32Table 31).staging.loading = true ∧ (staged zbase32Table 31).staging.len.toNat < 32)
    ∧ ((staged zbase32Table 32).staging.loading = true ∧ (staged zbase32Table 32).staging.len.toNat = 32)
    ∧ ((staged zbase32Table 33).staging.loading = true ∧ 32 < (staged zbase32Table 33).staging.len.toNat) := by decide

theorem witness_CommitOfValidStringInstalls : (staged zbase32Table 32).staging.loading = true
    ∧ ¬ sessionOpen (staged zbase32Table 32) ∧ (staged zbase32Table 32).staging.len = 32
    ∧ LegalAlphabet (staged zbase32Table 32).staging.bytes := ⟨by decide, by decide, by decide, legal_zbase32⟩

/-- A wrong length; an unprintable byte first, and last; a duplicate at the last position; a legal string. -/
theorem witness_CommitReportsFirstError :
    ((staged zbase32Table 33).staging.loading = true ∧ ¬ sessionOpen (staged zbase32Table 33)
      ∧ (staged zbase32Table 33).staging.len ≠ 32)
    ∧ ((zbase32Table.set 0 0x1F).get 0).toNat < 0x20
    ∧ ((∀ i, i < (31 : Fin 32) → (0x20 ≤ ((zbase32Table.set 31 0x7F).get i).toNat
        ∧ ((zbase32Table.set 31 0x7F).get i).toNat ≤ 0x7E)
        ∧ ∀ k, k < i → (zbase32Table.set 31 0x7F).get k ≠ (zbase32Table.set 31 0x7F).get i)
      ∧ 0x7E < ((zbase32Table.set 31 0x7F).get 31).toNat)
    ∧ ((∀ i, i < (31 : Fin 32) → (0x20 ≤ ((zbase32Table.set 31 0x79).get i).toNat
        ∧ ((zbase32Table.set 31 0x79).get i).toNat ≤ 0x7E)
        ∧ ∀ k, k < i → (zbase32Table.set 31 0x79).get k ≠ (zbase32Table.set 31 0x79).get i)
      ∧ (0x20 ≤ ((zbase32Table.set 31 0x79).get 31).toNat ∧ ((zbase32Table.set 31 0x79).get 31).toNat ≤ 0x7E)
      ∧ ∃ i, i < (31 : Fin 32) ∧ (zbase32Table.set 31 0x79).get i = (zbase32Table.set 31 0x79).get 31)
    ∧ LegalAlphabet zbase32Table := ⟨by decide, by decide, by decide +kernel, by decide +kernel, legal_zbase32⟩

theorem witness_PresetInstallsItsAlphabet : sessionOpen (encoding State.reset 0 0) ∧ sessionOpen (decoding rfc 0 0)
    ∧ ¬ sessionOpen State.reset ∧ ¬ sessionOpen (failed rfc) := by decide

theorem witness_EncByteTakesOneByte : State.reset.enc.state ≠ .active
    ∧ (encoding State.reset 4 3).enc.state = .active ∧ (encoding rfc 0 0).enc.state = .active := by decide

/-- Every phase with its widest carry; and Normal order. -/
theorem witness_EncFinishFlushesCarry :
    (∀ p, (encoding State.reset p (BitVec.ofNat 4 (2 ^ carryBits p - 1))).enc.state = .active
        ∧ EncoderInv (encoding State.reset p (BitVec.ofNat 4 (2 ^ carryBits p - 1))).enc)
    ∧ (encoding rfc 3 15).enc.state = .active ∧ EncoderInv (encoding rfc 3 15).enc :=
  ⟨fun p => ⟨rfl, by revert p; decide, by revert p; decide, by revert p; decide⟩, rfl, ⟨by decide, by decide, by decide⟩⟩

/-- No session; no carry pending; a carry pending in Normal order; a carry of value 0 pending in Inverse order. -/
theorem witness_EncFinishClosesSession : State.reset.enc.state ≠ .active
    ∧ ((encoding rfc 0 0).enc.state = .active ∧ (encoding rfc 0 0).enc.pend = false)
    ∧ ((encoding rfc 3 15).enc.state = .active ∧ (encoding rfc 3 15).enc.pend = true
      ∧ (encoding rfc 3 15).alpha.order = .normal)
    ∧ ((encoding State.reset 1 0).enc.state = .active ∧ (encoding State.reset 1 0).enc.pend = true
      ∧ (encoding State.reset 1 0).alpha.order = .inverse) := by decide

theorem witness_InverseSessionEmitsLittleEndianGroups :
    (holding (encodeSession [0x68, 0xFF] ++ [.reset]) State.reset).alpha.order = .inverse
    ∧ (holding (encodeSession [0x68, 0xFF] ++ [.reset]) State.reset).port = encodeSession [0x68, 0xFF] ++ [.reset] :=
  ⟨rfl, rfl⟩

theorem witness_NormalSessionEmitsBitStringGroups :
    (holding (encodeSession [0x68, 0xFF] ++ [.reset]) rfc).alpha.order = .normal
    ∧ (holding (encodeSession [0x68, 0xFF] ++ [.reset]) rfc).port = encodeSession [0x68, 0xFF] ++ [.reset] :=
  ⟨rfl, rfl⟩

/-- 2 pending bits (no byte yet), 3 (exactly 8 with the symbol) and 7, the most. -/
theorem witness_DecSymNormalStep :
    (∀ n : BitVec 4, n = 2 ∨ n = 3 ∨ n = 7 →
      (decoding rfc 0x003 n).dec.state = .active ∧ (decoding rfc 0x003 n).alpha.order = .normal
      ∧ DecoderInv (decoding rfc 0x003 n).alpha.order (decoding rfc 0x003 n).dec)
    ∧ rfc.alpha.rev.get (0x37 : Byte).toFin = (31 : Value).setWidth 8
    ∧ (2 + 5 < 8 ∧ 8 ≤ 3 + 5 ∧ 8 ≤ 7 + 5) :=
  ⟨fun n h => ⟨rfl, rfl, by revert n; decide, by revert n; decide, fun _ _ => by revert n; decide,
    fun h => (by rcases h with h | h <;> cases h), fun _ => ⟨rfl, rfl⟩⟩, by decide +kernel, by decide⟩

/-- 0, 7 (no byte yet), 8 and 12 pending bits. -/
theorem witness_DecSymInverseStep :
    (∀ n : BitVec 4, n = 0 ∨ n = 7 ∨ n = 8 ∨ n = 12 →
      (decoding State.reset 0x000 n).dec.state = .active ∧ (decoding State.reset 0x000 n).alpha.order = .inverse
      ∧ DecoderInv (decoding State.reset 0x000 n).alpha.order (decoding State.reset 0x000 n).dec)
    ∧ State.reset.alpha.rev.get (0x39 : Byte).toFin = (31 : Value).setWidth 8 :=
  ⟨fun n h => ⟨rfl, rfl, Nat.two_pow_pos _, by revert n; decide, fun _ h => (by cases h),
    fun h => (by rcases h with h | h <;> cases h), fun _ => ⟨rfl, rfl⟩⟩, by decide +kernel⟩

theorem witness_DecSymInvalidFails : (decoding State.reset 0x168 10).dec.state = .active
    ∧ (decoding State.reset 0x168 10).alpha.rev.get (0x21 : Byte).toFin = 0xFF := by decide +kernel

theorem witness_FailedIsTerminal : (failed State.reset).dec.state = .failed ∧ Instr.decFinish ≠ .decStart := by decide

/-- Failed; idle; Inverse with bits pending; Inverse without; Normal with bits pending. -/
theorem witness_DecFinishClosesSession : (failed rfc).dec.state = .failed ∧ State.reset.dec.state = .idle
    ∧ ((decoding State.reset 0xFFF 12).dec.state = .active ∧ (decoding State.reset 0xFFF 12).alpha.order = .inverse
      ∧ (decoding State.reset 0xFFF 12).dec.nbits ≠ 0)
    ∧ ((decoding State.reset 0 0).dec.state = .active ∧ (decoding State.reset 0 0).dec.nbits = 0)
    ∧ ((decoding rfc 1 2).dec.state = .active ∧ (decoding rfc 1 2).alpha.order = .normal) := by decide

theorem witness_NormalTailUnderEachParameter :
    ((decoding rfc 1 2).dec.state = .active ∧ (decoding rfc 1 2).alpha.order = .normal
      ∧ (decoding rfc 1 2).dec.nbits ≠ 0 ∧ (decoding rfc 1 2).dec.acc ≠ 0)
    ∧ ((decoding rfc 0 2).dec.state = .active ∧ (decoding rfc 0 2).alpha.order = .normal
      ∧ (decoding rfc 0 2).dec.acc = 0) := by decide

theorem witness_DecoderSessionByteCount :
    (∀ d ∈ [(0x62 : Byte), 0x64], isSymbol (holding (decodeSession [0x62, 0x64] ++ [.reset]) State.reset).alpha d)
    ∧ (holding (decodeSession [0x62, 0x64] ++ [.reset]) State.reset).port = decodeSession [0x62, 0x64] ++ [.reset] := by
  refine ⟨fun d hd => ?_, rfl⟩
  rcases List.mem_cons.mp hd with rfl | hd
  · exact ⟨1, by decide +kernel⟩
  · rcases List.mem_cons.mp hd with rfl | hd
    · exact ⟨3, by decide +kernel⟩
    · cases hd

/-- The outer hypotheses, and those on a decoding state under the same alphabet ("a" is "bd": L3). -/
theorem witness_RoundTrip : InverseTables (holding (encodeSession [0x61] ++ []) State.reset).alpha
    ∧ (holding (encodeSession [0x61] ++ []) State.reset).port = encodeSession [0x61] ++ []
    ∧ (holding (decodeSession [0x62, 0x64] ++ []) State.reset).alpha
        = (holding (encodeSession [0x61] ++ []) State.reset).alpha
    ∧ (holding (decodeSession [0x62, 0x64] ++ []) State.reset).port = decodeSession [0x62, 0x64] ++ []
    ∧ (holding (decodeSymbols [0x62, 0x64] ++ []) State.reset).port = decodeSymbols [0x62, 0x64] ++ [] :=
  ⟨reset_tables, rfl, rfl, rfl, rfl⟩

/-- D12's string, "em3!gs". -/
theorem witness_FirstInvalidSymbolIsReported :
    InverseTables (holding (decodeSession ([0x65, 0x6D, 0x33] ++ 0x21 :: [0x67, 0x73]) ++ []) State.reset).alpha
    ∧ (∀ x ∈ [(0x65 : Byte), 0x6D, 0x33], ∃ i, State.reset.alpha.fwd.get i = x)
    ∧ (∀ i, State.reset.alpha.fwd.get i ≠ 0x21)
    ∧ (holding (decodeSession ([0x65, 0x6D, 0x33] ++ 0x21 :: [0x67, 0x73]) ++ []) State.reset).port
        = decodeSession ([0x65, 0x6D, 0x33] ++ 0x21 :: [0x67, 0x73]) ++ [] :=
  ⟨reset_tables, by decide, by decide, rfl⟩

theorem witness_LengthHelpersBoundSessions :
    (([0x68, 0xFF] : List Byte).length < 2 ^ 24
      ∧ (holding (encodeSession [0x68, 0xFF]) State.reset).port = encodeSession [0x68, 0xFF])
    ∧ ([0x62, 0x64] : List Byte).length < 2 ^ 24
    ∧ (holding (decodeSession [0x62, 0x64]) State.reset).port = decodeSession [0x62, 0x64] :=
  ⟨⟨by decide, rfl⟩, by decide, rfl⟩

/-- A word of no row; each command error; a command that raises none. -/
theorem witness_CommandErrorTable :
    ((holding [.command 0x43000000] State.reset).port = .command 0x43000000 :: [] ∧ decode 0x43000000 = .illegal)
    ∧ (decode 0x20000061 = .instr (.alphaByte 0x61) ∧ cmdErrorOf (.alphaByte 0x61) State.reset = some .seqAlpha)
    ∧ (decode 0x30000000 = .instr .alphaCommit ∧ cmdErrorOf .alphaCommit (encoding State.reset 0 0) = some .seqAlpha
      ∧ cmdErrorOf .alphaCommit ((staged zbase32Table 32).withDec (decoding rfc 0 0).dec) = some .busy)
    ∧ (decode 0x42000000 = .instr .alphaPresetBech32 ∧ cmdErrorOf .alphaPresetBech32 (decoding rfc 0 0) = some .busy)
    ∧ (decode 0x60000000 = .instr (.encByte 0) ∧ cmdErrorOf (.encByte 0) State.reset = some .seqEnc)
    ∧ (decode 0xA0000000 = .instr .decFinish ∧ cmdErrorOf .decFinish State.reset = some .seqDec
      ∧ cmdErrorOf .decFinish (failed State.reset) = none ∧ Instr.decFinish ≠ .clrErr) := by decide

/-- A word that raises an error (SEQ_ENC), so that the second hypothesis is met too. -/
theorem witness_RecordedWordIsAcceptedWord :
    (holding [.command 0x60000000] State.reset).port = .command 0x60000000 :: []
    ∧ (holding [.command 0x60000000] State.reset).cmdErr.cause = .none
    ∧ (after 0x60000000 State.reset).cmdErr.cause ≠ .none := by decide

theorem witness_FirstCommandErrorIsKept :
    (holding [.command 0x60000000] withError).port = .command 0x60000000 :: []
    ∧ (holding [.command 0x60000000] withError).cmdErr.cause ≠ .none ∧ decode 0x60000000 ≠ .instr .clrErr := by decide

/-- Each part is changed by one of the commands its clause names. -/
theorem witness_WritersOfEachPart :
    (after 0x41000000 State.reset).alpha.src ≠ State.reset.alpha.src
    ∧ (after 0x10000000 State.reset).staging.loading ≠ State.reset.staging.loading
    ∧ (after 0x50000000 State.reset).enc ≠ State.reset.enc ∧ (after 0x80000000 State.reset).dec ≠ State.reset.dec
    ∧ (after 0xB0000005 State.reset).lenOut ≠ State.reset.lenOut
    ∧ (after 0x30000000 (staged zbase32Table 8)).alphaErr ≠ (staged zbase32Table 8).alphaErr
    ∧ (after 0x60000068 (encoding State.reset 0 0)).encOut ≠ []
    ∧ (after 0xA0000000 (decoding State.reset 0x3FF 10)).decOut ≠ [] := by decide +kernel

theorem witness_AlphabetFrozenDuringSession :
    (holding [.command 0x41000000] (encoding State.reset 0 0)).port = .command 0x41000000 :: []
    ∧ sessionOpen (holding [.command 0x41000000] (encoding State.reset 0 0)) := by decide

theorem witness_StreamsOnlyGrow :
    (holding [.command 0x60000065] (encoding State.reset 1 3)).port = .command 0x60000065 :: [] := rfl

theorem witness_UnitsReadOnlyOwnState : (encoding State.reset 1 3).alpha = (failed (encoding State.reset 1 3)).alpha
    ∧ isEncoderCommand (.encByte 0x65) = true
    ∧ (encoding State.reset 1 3).enc = (failed (encoding State.reset 1 3)).enc
    ∧ isDecoderCommand (.decSym 0x65) = true
    ∧ (failed State.reset).dec = (failed (encoding State.reset 1 3)).dec := ⟨rfl, rfl, rfl, rfl, rfl⟩

theorem witness_EncoderAndDecoderCommute : isEncoderCommand (.encByte 0x65) = true
    ∧ isDecoderCommand (.decSym 0x65) = true
    ∧ cmdErrorOf (.encByte 0x65) (decoding (encoding State.reset 1 3) 0x168 10) = none
    ∧ cmdErrorOf (.decSym 0x65) (decoding (encoding State.reset 1 3) 0x168 10) = none := by decide

/-- A state in the middle of both sessions, other than the reset state, that meets the invariant and has a command to take. -/
theorem witness_StepKeepsBlockInvariant :
    BlockInv (holding [.command 0x60000065] (decoding (encoding State.reset 1 3) 0x168 10)) where
  alphabet := ⟨legal_zbase32, reset_tables, rfl, rfl⟩
  stagedLength := by decide
  encoder := ⟨by decide, by decide, by decide⟩
  decoder := ⟨by decide, by decide, by decide, by decide, by decide⟩
  alphaRecord := ⟨rfl, rfl⟩
  cmdRecord := rfl

/-- The first and last index of each run of unlisted indices. -/
theorem witness_ReadPortMap : ∀ idx ∈ [(0x00E : BitVec 12), 0x0FF, 0x120, 0x1FF, 0x320, 0xFFF],
    (0x00D < idx.toNat ∧ idx.toNat < 0x100) ∨ (0x120 ≤ idx.toNat ∧ idx.toNat < 0x200) ∨ 0x320 ≤ idx.toNat := by
  decide +kernel

end Sys2Proof.Tests
end

section
/-! The read port (10_state.md R43 to R45) and the reset values (R48): how a packed word, a single register and a table
window read, then the four statements of the family. -/

namespace Sys2Proof.Machine

/-! ## Reading a field back out of a packed word -/

/-- A field is read back whole at the bits it was put at. -/
theorem place_extractLsb'_self {n lo : Nat} (x : BitVec n) (fits : lo + n ≤ 32) :
    (place lo x).extractLsb' lo n = x := by
  ext k hk
  simp [show lo + k < 32 by omega, BitVec.getLsbD_eq_getElem hk]

/-- A one-bit field is read back as a bit. -/
theorem place_getLsbD_self {lo : Nat} (x : BitVec 1) (fits : lo < 32) : (place lo x).getLsbD lo = x.getLsbD 0 := by
  simp [fits]

/-- A field has no bit above it or below it. -/
theorem place_getLsbD_disjoint {n lo k : Nat} (x : BitVec n) (apart : lo + n ≤ k ∨ k < lo) :
    (place lo x).getLsbD k = false := by
  obtain above | below := apart
  · simp [BitVec.getLsbD_of_ge x (k - lo) (by omega)]
  · simp [show ¬ lo ≤ k by omega]

/-- A field puts nothing at the bits above it or below it. -/
theorem place_extractLsb'_disjoint {n lo start len : Nat} (x : BitVec n)
    (apart : lo + n ≤ start ∨ start + len ≤ lo) : (place lo x).extractLsb' start len = 0#len := by
  ext k hk
  rw [BitVec.getElem_extractLsb', place_getLsbD_disjoint x (by omega), BitVec.getElem_zero]

theorem flagBit_getLsbD_zero (b : Bool) : (flagBit b).getLsbD 0 = b := by
  cases b <;> rfl

theorem orderCode_getLsbD_zero (o : Order) : (orderCode o).getLsbD 0 = (o == .inverse) := by
  cases o <;> rfl

/-- K(p) fits the three bits it has in the ENC_CARRY word (R45). -/
theorem carryBits_lt_eight (p : Fin 5) : carryBits p < 8 := by
  revert p
  decide

/-! ## The packed words in the register map (R44, R45) -/

theorem regRead_status (s : State) : regRead s 0x000 = statusWord s := rfl

theorem regRead_encCarry (s : State) : regRead s 0x003 = encCarryWord s := rfl

theorem regRead_decAcc (s : State) : regRead s 0x006 = decAccWord s := rfl

theorem regRead_alphaErr (s : State) : regRead s 0x00A = alphaErrWord s := rfl

/-! ## The windows of the register map (R43) -/

/-- Inside a table its window reads the entry. -/
theorem tableWindow_entry {n : Nat} (t : Table n) (i : Fin n) : tableWindow t i.val = (t.get i).setWidth 32 :=
  dif_pos i.isLt

/-- Past the table's end its window reads 0. -/
theorem tableWindow_past {n : Nat} (t : Table n) {k : Nat} (h : n ≤ k) : tableWindow t k = 0 :=
  dif_neg (Nat.not_lt.mpr h)

/-- Above 0x00D no single register is listed. -/
theorem singleRegister_unlisted (s : State) {k : Nat} (h : 0x00D < k) : singleRegister s k = 0 := by
  obtain ⟨j, rfl⟩ := Nat.exists_eq_add_of_le' h
  rfl

section
variable (s : State) {idx : BitVec 12}

theorem regRead_single (hi : idx.toNat < 0x100) : regRead s idx = singleRegister s idx.toNat :=
  if_pos hi

theorem regRead_fwd (lo : 0x100 ≤ idx.toNat) (hi : idx.toNat < 0x200) :
    regRead s idx = tableWindow s.alpha.fwd (idx.toNat - 0x100) := by
  rw [regRead, if_neg (by omega), if_pos hi]

theorem regRead_rev (lo : 0x200 ≤ idx.toNat) (hi : idx.toNat < 0x300) :
    regRead s idx = tableWindow s.alpha.rev (idx.toNat - 0x200) := by
  rw [regRead, if_neg (by omega), if_neg (by omega), if_pos hi]

theorem regRead_stg (lo : 0x300 ≤ idx.toNat) :
    regRead s idx = tableWindow s.staging.bytes (idx.toNat - 0x300) := by
  rw [regRead, if_neg (by omega), if_neg (by omega), if_neg (by omega)]

theorem regRead_fwd_entry (i : Fin 32) (h : idx.toNat = 0x100 + i.val) :
    regRead s idx = (s.alpha.fwd.get i).setWidth 32 := by
  rw [regRead_fwd s (by omega) (by omega), h, Nat.add_sub_cancel_left, tableWindow_entry]

theorem regRead_rev_entry (b : Fin 256) (h : idx.toNat = 0x200 + b.val) :
    regRead s idx = (s.alpha.rev.get b).setWidth 32 := by
  rw [regRead_rev s (by omega) (by omega), h, Nat.add_sub_cancel_left, tableWindow_entry]

theorem regRead_stg_entry (i : Fin 32) (h : idx.toNat = 0x300 + i.val) :
    regRead s idx = (s.staging.bytes.get i).setWidth 32 := by
  rw [regRead_stg s (by omega), h, Nat.add_sub_cancel_left, tableWindow_entry]

/-- An unlisted index reads 0: it is above the single registers, past the end of FWD, or past the end of STG. -/
theorem regRead_unlisted (h : (0x00D < idx.toNat ∧ idx.toNat < 0x100)
    ∨ (0x120 ≤ idx.toNat ∧ idx.toNat < 0x200) ∨ 0x320 ≤ idx.toNat) : regRead s idx = 0 := by
  obtain ⟨lo, hi⟩ | ⟨lo, hi⟩ | lo := h
  · rw [regRead_single s hi, singleRegister_unlisted s lo]
  · rw [regRead_fwd s (by omega) hi, tableWindow_past _ (by omega)]
  · rw [regRead_stg s (by omega), tableWindow_past _ (by omega)]

end

/-! ## The statements -/

/-- The symbols of ZBASE32 are distinct (R100, R108). -/
theorem zbase32Table_distinct : ∀ i j, zbase32Table.get i = zbase32Table.get j → i = j := by
  decide

/-- Settles O9: FWD is the ZBASE32 preset and REV is built from it, so the tables are inverse because the preset's symbols
are distinct; STG is filled with 0 and every other element is its literal. -/
theorem resetGivesEveryElementItsValue : Obligations.ResetGivesEveryElementItsValue := by
  have tables : InverseTables State.reset.alpha := installAlphabet_inverse zbase32Table_distinct .inverse .zbase32
  exact ⟨rfl, tables, rfl, rfl, Table.get_fill 0x00, rfl, rfl, rfl, rfl, rfl, rfl, rfl, rfl, rfl, rfl⟩

/-- Settles O50: the single registers by the map, each table entry in its table's window, and 0 in the three unlisted
ranges. -/
theorem readPortMap : Obligations.ReadPortMap := by
  intro s
  refine ⟨rfl, rfl, rfl, rfl, rfl, rfl, rfl, ?cause, rfl, rfl, fun i => ?fwd, fun b => ?rev, fun i => ?stg,
    fun _ => regRead_unlisted s⟩
  case cause =>
    change s.cmdErr.cause.code.setWidth 32 = _
    cases s.cmdErr.cause <;> rfl
  case fwd => exact regRead_fwd_entry s i (Nat.mod_eq_of_lt (by omega))
  case rev => exact regRead_rev_entry s b (Nat.mod_eq_of_lt (by omega))
  case stg => exact regRead_stg_entry s i (Nat.mod_eq_of_lt (by omega))

/-- Settles O51: STATUS is the union of its placed fields, so at a field's bits that field is read back and every other
one gives 0; what is left to show is each field's code. -/
theorem statusFields : Obligations.StatusFields := by
  intro s
  have phase : (BitVec.ofNat 3 s.enc.phase.val).toNat = s.enc.phase.val := Nat.mod_eq_of_lt (by omega)
  simp (disch := omega) only [regRead_status, statusWord, BitVec.extractLsb, BitVec.extractLsb'_or, BitVec.getLsbD_or,
    place_extractLsb'_self, place_extractLsb'_disjoint, place_getLsbD_self, place_getLsbD_disjoint, BitVec.or_zero,
    BitVec.zero_or, Bool.or_false, Bool.false_or, flagBit_getLsbD_zero, orderCode_getLsbD_zero, cmdErrValid, phase,
    true_and, and_true]
  refine ⟨?encState, ?decState, ?alphaSrc, ?alphaCode⟩
  case encState => cases s.enc.state <;> rfl
  case decState => cases s.dec.state <;> rfl
  case alphaSrc => cases s.alpha.src <;> rfl
  case alphaCode => cases s.alphaErr.code <;> rfl

/-- Settles O52, as O51: each of the three words is the union of its placed fields. -/
theorem packedRegisterLayouts : Obligations.PackedRegisterLayouts := by
  intro s
  have width : (BitVec.ofNat 3 (carryBits s.enc.phase)).toNat = carryBits s.enc.phase :=
    Nat.mod_eq_of_lt (carryBits_lt_eight s.enc.phase)
  simp (disch := omega) only [regRead_encCarry, regRead_decAcc, regRead_alphaErr, encCarryWord, decAccWord,
    alphaErrWord, BitVec.extractLsb, BitVec.extractLsb'_or, BitVec.getLsbD_or, place_extractLsb'_self,
    place_extractLsb'_disjoint, place_getLsbD_self, place_getLsbD_disjoint, BitVec.or_zero, BitVec.zero_or,
    Bool.false_or, flagBit_getLsbD_zero, width, true_and, and_true]
  cases s.alphaErr.code <;> rfl

end Sys2Proof.Machine
end

section
/-! The opcode map (30_encoding.md R84 to R86): its rows are disjoint, so the order the decoding procedure tries them in
is irrelevant and a word decodes by whichever row it matches; then the two statements of the family. -/

namespace Sys2Proof

/-! ## Disjoint rows -/

/-- No word matches both rows. -/
def OpcodeRow.DisjointFrom (r q : OpcodeRow) : Prop :=
  ∀ w : Word, ¬ (w &&& r.mask = r.pattern ∧ w &&& q.mask = q.pattern)

/-- Rows whose patterns differ on the bits both masks fix are disjoint: a word of both rows would have each of the two
patterns there. -/
theorem OpcodeRow.disjointFrom_of_patterns_ne {r q : OpcodeRow}
    (h : r.pattern &&& q.mask ≠ q.pattern &&& r.mask) : r.DisjointFrom q := by
  rintro w ⟨hr, hq⟩
  apply h
  calc r.pattern &&& q.mask = w &&& r.mask &&& q.mask := by rw [hr]
    _ = w &&& q.mask &&& r.mask := by ac_rfl
    _ = q.pattern &&& r.mask := by rw [hq]

theorem opcodeMap_pairwise_disjointFrom : opcodeMap.Pairwise OpcodeRow.DisjointFrom := by
  have patterns : opcodeMap.Pairwise fun r q => r.pattern &&& q.mask ≠ q.pattern &&& r.mask := by decide
  exact patterns.imp OpcodeRow.disjointFrom_of_patterns_ne

/-! ## Decoding by a row -/

section
variable {w : Word} {r : OpcodeRow} {rows : List OpcodeRow}

theorem OpcodeRow.accepts_iff : r.accepts w = true ↔ w &&& r.mask = r.pattern := beq_iff_eq

theorem decodeRows_cons_of_match (h : w &&& r.mask = r.pattern) :
    decodeRows w (r :: rows) = .instr (r.command w) :=
  if_pos (OpcodeRow.accepts_iff.mpr h)

theorem decodeRows_cons_of_not_match (h : w &&& r.mask ≠ r.pattern) :
    decodeRows w (r :: rows) = decodeRows w rows :=
  if_neg (mt OpcodeRow.accepts_iff.mp h)

/-- Among disjoint rows a word decodes by the row it matches, wherever that row stands. -/
theorem decodeRows_of_match (disjoint : rows.Pairwise OpcodeRow.DisjointFrom) (mem : r ∈ rows)
    (h : w &&& r.mask = r.pattern) : decodeRows w rows = .instr (r.command w) := by
  induction rows with
  | nil => cases mem
  | cons q rows ih =>
    obtain ⟨apart, disjoint⟩ := List.pairwise_cons.mp disjoint
    obtain rfl | mem := List.mem_cons.mp mem
    · exact decodeRows_cons_of_match h
    · have later : w &&& q.mask ≠ q.pattern := fun hq => apart r mem w ⟨hq, h⟩
      rw [decodeRows_cons_of_not_match later, ih disjoint mem]

theorem decodeRows_of_no_match (h : ∀ r ∈ rows, w &&& r.mask ≠ r.pattern) : decodeRows w rows = .illegal := by
  induction rows with
  | nil => rfl
  | cons q rows ih =>
    obtain ⟨head, tail⟩ := List.forall_mem_cons.mp h
    rw [decodeRows_cons_of_not_match head, ih tail]

end

/-- A word that matches the row at position `k` of R84 decodes to that row's command. -/
theorem decode_of_match_row (k : Fin 15) {w : Word}
    (h : w &&& (opcodeMap.get k).mask = (opcodeMap.get k).pattern) : decode w = .instr ((opcodeMap.get k).command w) :=
  decodeRows_of_match opcodeMap_pairwise_disjointFrom (List.get_mem opcodeMap k) h

/-- A word that matches no row of R84 is ILLEGAL (R86). -/
theorem decode_of_no_match {w : Word} (h : ∀ r ∈ opcodeMap, w &&& r.mask ≠ r.pattern) : decode w = .illegal :=
  decodeRows_of_no_match h

/-! ## Where an operand stands in the word (R81, R83) -/

/-- The order bit is bit 24 of the word. -/
theorem orderOperand_eq_bit (w : Word) : orderOperand w = if w.getLsbD 24 then .inverse else .normal := by
  simp [orderOperand, orderOfBit, subField]

/-- The byte operand is the low byte of the word. -/
theorem byteOperand_eq_extractLsb (w : Word) : byteOperand w = w.extractLsb 7 0 := by
  ext k hk
  simp [byteOperand, immField]

/-- The length operand is the low 24 bits of the word. -/
theorem lengthOperand_eq_extractLsb (w : Word) : lengthOperand w = w.extractLsb 23 0 := rfl

/-! ## The statements -/

/-- Settles O3: the rows are disjoint because their patterns differ on the bits both masks fix, so each row of the map
gives the command of the words that match it, with its operand at its bits of the word. -/
theorem opcodeMapIsComplete : Obligations.OpcodeMapIsComplete := by
  refine ⟨fun w => ?rows, rfl, opcodeMap_pairwise_disjointFrom⟩
  rw [← orderOperand_eq_bit, ← byteOperand_eq_extractLsb, ← lengthOperand_eq_extractLsb]
  exact ⟨decode_of_match_row 0, decode_of_match_row 1, decode_of_match_row 2, decode_of_match_row 3,
    decode_of_match_row 4, decode_of_match_row 5, decode_of_match_row 6, decode_of_match_row 7,
    decode_of_match_row 8, decode_of_match_row 9, decode_of_match_row 10, decode_of_match_row 11,
    decode_of_match_row 12, decode_of_match_row 13, decode_of_match_row 14, decode_of_no_match⟩

/-- Settles O5: each legal word by the row of R84 it matches, each illegal word because it matches no row, and the
encoded words by their fields. -/
theorem exampleWordsDecode : Obligations.ExampleWordsDecode :=
  ⟨decode_of_match_row 0 rfl, decode_of_match_row 7 rfl, decode_of_match_row 10 rfl, decode_of_match_row 12 rfl,
    rfl, rfl, rfl, rfl, decode_of_match_row 5 rfl, decode_of_match_row 14 rfl,
    decode_of_no_match (by decide), decode_of_no_match (by decide), decode_of_no_match (by decide)⟩

end Sys2Proof
end

section
/-! The alphabet unit (40_alphabet.md): the word of a byte command, what one write of BuildTables adds to REV, which error
a validation reports, and the outcome of each alphabet command said once; then the six statements of the family. -/

namespace Sys2Proof.Machine

/-! ## The word of a byte command (30_encoding.md R81, R84) -/

/-- With SUB 0 a byte stands in the low bits under its opcode. -/
theorem wordOfRaw_byte (opc : BitVec 4) (d : Byte) :
    wordOfRaw ⟨opc, 0, d.setWidth 24⟩ = opc.setWidth 32 <<< 28 ||| d.setWidth 32 := by
  apply word_ext
  rw [rawOfWord_wordOfRaw]
  simp only [rawOfWord, opcField, subField, immField, RawCommand.mk.injEq]
  refine ⟨?opc, ?sub, ?imm⟩ <;> ext k hk
  case opc => simp [BitVec.getLsbD_of_ge d (28 + k) (by omega), hk, show 28 + k < 32 by omega]
  case sub => simp [BitVec.getLsbD_of_ge d (24 + k) (by omega), show ¬ 28 ≤ 24 + k by omega]
  case imm => simp [show k < 28 by omega, show k < 32 by omega]

theorem encode_alphaByte (d : Byte) : encode (.alphaByte d) = 0x20000000 ||| d.setWidth 32 :=
  wordOfRaw_byte 0x2 d

/-! ## How many symbols REV knows (R101) -/

/-- Overwriting an entry that does not satisfy `p` by one that does adds one to the count. -/
theorem Table.countP_set {n : Nat} (t : Table n) (i : Fin n) (b : Byte) (p : Byte → Bool)
    (old : p (t.get i) = false) (new : p b = true) :
    (t.set i b).cells.countP p = t.cells.countP p + 1 := by
  have hi : i.val < t.cells.length := t.size.symm ▸ i.isLt
  rw [Table.get_eq t i hi] at old
  simp [Table.set, List.countP_set hi, old, new]

/-- A position below 255 is not the sentinel. -/
theorem ofNat_bne_invalid {i : Nat} (h : i < 255) : (BitVec.ofNat 8 i != 0xFF) = true := by
  rw [bne_iff_ne]
  bv_omega

/-- The inversion loop adds one valid entry for each byte, where the bytes are distinct and still INVALID. -/
theorem invertInto_countP (rev : Table 256) (i : Nat) (l : List Byte) (distinct : l.Nodup)
    (fresh : ∀ b ∈ l, rev.get b.toFin = invalidEntry) (small : i + l.length ≤ 255) :
    (invertInto rev i l).cells.countP (fun e => e != 0xFF)
      = rev.cells.countP (fun e => e != 0xFF) + l.length := by
  induction l generalizing rev i with
  | nil => rfl
  | cons c l ih =>
    obtain ⟨hc, hl⟩ := List.nodup_cons.mp distinct
    obtain ⟨freshHead, freshTail⟩ := List.forall_mem_cons.mp fresh
    rw [List.length_cons] at small
    have fresh' : ∀ b ∈ l, (rev.set c.toFin (BitVec.ofNat 8 i)).get b.toFin = invalidEntry := by
      intro b hb
      have ne : b.toFin ≠ c.toFin := fun e => hc (BitVec.eq_of_toFin_eq e ▸ hb)
      rw [Table.get_set_of_ne _ _ ne, freshTail b hb]
    have one := rev.countP_set c.toFin (BitVec.ofNat 8 i) (fun e => e != 0xFF)
      (by rw [freshHead]; rfl) (ofNat_bne_invalid (by omega))
    rw [invertInto, ih _ _ hl fresh' (by omega), one, List.length_cons]
    omega

/-- The REV of 32 distinct bytes has 32 valid entries. -/
theorem buildRev_countP {t : Table 32} (h : ∀ i j, t.get i = t.get j → i = j) :
    (buildRev t).cells.countP (fun e => e != 0xFF) = 32 := by
  rw [buildRev, invertInto_countP _ _ _ (Table.nodup_of_injective h) (fun _ _ => Table.get_fill ..)
    (by rw [t.size]; decide), t.size]
  rw [Table.fill, List.countP_replicate]
  rfl

/-! ## The presets (R100, R109) -/

theorem presetTable_legal (p : Preset) : LegalAlphabet (presetTable p) := by
  cases p with
  | zbase32 => exact ⟨by decide, zbase32Table_distinct⟩
  | rfc4648 => exact ⟨by decide, by decide⟩
  | bech32 => exact ⟨by decide, by decide⟩

/-- The three preset commands are one operation on their preset and their word. -/
theorem exec_presetCommand (p : Preset) (s : State) :
    exec (presetCommand p) s = installPreset p (presetWord p) s := by
  cases p <;> rfl

theorem installPreset_of_open {s : State} (p : Preset) (w : Word) (h : sessionOpen s) :
    installPreset p w s = .next (raiseCmdError .busy w s) :=
  if_pos ((busy_iff s).mpr h)

theorem installPreset_of_closed {s : State} (p : Preset) (w : Word) (h : ¬ sessionOpen s) :
    installPreset p w s = .next
      ((s.withAlpha (installAlphabet (presetTable p) (presetOrder p) (presetSrc p))).withAlphaErr noAlphaErr) := by
  rw [installPreset, (busy_eq_false_iff s).mpr h]
  rfl

/-! ## Staging (R103, R104) -/

section
variable {g : Staging} (d : Byte)

theorem stageByte_of_lt (h : g.len.toNat < 32) :
    stageByte g d = { g with bytes := g.bytes.set ⟨g.len.toNat, h⟩ d, len := g.len + 1 } :=
  dif_pos h

theorem stageByte_of_eq (h : g.len.toNat = 32) : stageByte g d = { g with len := 33 } := by
  rw [stageByte, dif_neg (by omega), if_pos (BitVec.eq_of_toNat_eq h)]

theorem stageByte_of_gt (h : 32 < g.len.toNat) : stageByte g d = g := by
  have ne : g.len ≠ 32 := fun e => by simp [e] at h
  rw [stageByte, dif_neg (by omega), if_neg ne]

end

@[simp] theorem stageByte_order (g : Staging) (d : Byte) : (stageByte g d).order = g.order := by
  obtain ⟨_, e⟩ | ⟨-, e⟩ | ⟨-, e⟩ := stageByte_cases g d <;> rw [e]

@[simp] theorem stageByte_loading (g : Staging) (d : Byte) : (stageByte g d).loading = g.loading := by
  obtain ⟨_, e⟩ | ⟨-, e⟩ | ⟨-, e⟩ := stageByte_cases g d <;> rw [e]

theorem withStaging_frame (s : State) (g : Staging) : keepsAllBut [.staging] s (s.withStaging g) := by
  simp [keepsAllBut_iff]

theorem exec_alphaByte_of_loading {s : State} (d : Byte) (h : s.staging.loading = true) :
    exec (.alphaByte d) s = .next (s.withStaging (stageByte s.staging d)) :=
  if_pos h

theorem exec_alphaByte_of_not_loading {s : State} (d : Byte) (h : s.staging.loading = false) :
    exec (.alphaByte d) s = .next (raiseCmdError .seqAlpha (0x20000000 ||| d.setWidth 32) s) := by
  rw [← encode_alphaByte]
  exact if_neg (by simp [h])

/-! ## Which error a validation reports (R106) -/

section
variable {stg : Table 32} {j : Fin 32}

theorem printable_iff (b : Byte) : printable b = true ↔ 0x20 ≤ b.toNat ∧ b.toNat ≤ 0x7E := by
  simp [printable]

theorem checkPosition_unprintable (h : (stg.get j).toNat < 0x20 ∨ 0x7E < (stg.get j).toNat) :
    checkPosition stg j = some ⟨.unprintableSymbol, stg.get j, BitVec.ofNat 5 j.val⟩ := by
  have bad : printable (stg.get j) = false := by
    rw [← Bool.not_eq_true, printable_iff]
    omega
  simp [checkPosition, bad]

theorem checkPosition_duplicate (h : 0x20 ≤ (stg.get j).toNat ∧ (stg.get j).toNat ≤ 0x7E)
    (dup : ∃ i, i < j ∧ stg.get i = stg.get j) :
    checkPosition stg j = some ⟨.duplicateSymbol, stg.get j, BitVec.ofNat 5 j.val⟩ := by
  simp [checkPosition, (printable_iff _).mpr h, dup]

theorem validate_of_length_ne {len : BitVec 6} (h : len ≠ 32) : validate stg len = some ⟨.invalidLength, 0, 0⟩ :=
  if_pos h

/-- With the length right, the error of the first position that fails is the one reported. -/
theorem validate_of_first {e : AlphaErr} (before : ∀ i, i < j → checkPosition stg i = none)
    (fails : checkPosition stg j = some e) : validate stg 32 = some e := by
  obtain ⟨l₁, l₂, hsplit⟩ := List.append_of_mem (List.mem_finRange j)
  have ascending : (l₁ ++ j :: l₂).Pairwise (· < ·) := hsplit ▸ List.pairwise_lt_finRange 32
  obtain ⟨-, -, below⟩ := List.pairwise_append.mp ascending
  have earlier : ∀ i ∈ l₁, checkPosition stg i = none := fun i hi => before i (below i hi j List.mem_cons_self)
  rw [validate, if_neg (by simp), hsplit, List.findSome?_append, List.findSome?_eq_none_iff.mpr earlier]
  simp [fails]

end

/-! ## The outcome of a commit past its checks (R105, R214) -/

section
variable {s : State}

theorem exec_alphaCommit_of_loading (h : s.staging.loading = true) (closed : ¬ sessionOpen s) :
    exec .alphaCommit s = .next (commitStaged s) := by
  change execAlphaCommit s = _
  simp [execAlphaCommit, h, (busy_eq_false_iff s).mpr closed]

theorem commitStaged_of_ok (h : validate s.staging.bytes s.staging.len = none) :
    commitStaged s = ((s.withStaging { s.staging with loading := false }).withAlpha
      (installAlphabet s.staging.bytes s.staging.order .custom)).withAlphaErr noAlphaErr := by
  rw [commitStaged, h]

theorem commitStaged_of_error {e : AlphaErr} (h : validate s.staging.bytes s.staging.len = some e) :
    commitStaged s = raiseAlphaError e s := by
  rw [commitStaged, h]

@[simp] theorem raiseAlphaError_alphaErr (e : AlphaErr) (s : State) : (raiseAlphaError e s).alphaErr = e := rfl

theorem raiseAlphaError_frame (e : AlphaErr) (s : State) :
    keepsAllBut [.staging, .alphaErr] s (raiseAlphaError e s) := by
  simp [keepsAllBut_iff, raiseAlphaError]

/-- A commit ends the load, whether it succeeds or fails. -/
theorem commitStaged_staging (s : State) : (commitStaged s).staging = { s.staging with loading := false } := by
  cases h : validate s.staging.bytes s.staging.len with
  | none => rw [commitStaged_of_ok h]; rfl
  | some e => rw [commitStaged_of_error h]; rfl

theorem commitStaged_alphaErr_of_error {e : AlphaErr} (h : validate s.staging.bytes s.staging.len = some e) :
    (commitStaged s).alphaErr = e := by
  rw [commitStaged_of_error h, raiseAlphaError_alphaErr]

/-- A commit that leaves an error is a failed one, so the current alphabet stays in place. -/
theorem commitStaged_frame_of_error (h : (commitStaged s).alphaErr.code ≠ .none) :
    keepsAllBut [.staging, .alphaErr] s (commitStaged s) := by
  cases v : validate s.staging.bytes s.staging.len with
  | none => exact absurd (by rw [commitStaged_of_ok v]; rfl) h
  | some e => rw [commitStaged_of_error v]; exact raiseAlphaError_frame e s

end

/-! ## The statements -/

/-- Settles O12: the tables are inverse because the bytes are distinct, and each write of the inversion loop turns one
INVALID entry of REV into a valid one. -/
theorem buildTablesInverts : Obligations.BuildTablesInverts :=
  fun _ o src legal =>
    ⟨rfl, installAlphabet_inverse legal.distinct o src, buildRev_countP legal.distinct⟩

/-- Settles O14: without a load the command is refused; in a load `stageByte` goes by the staged length. -/
theorem alphaByteAppends : Obligations.AlphaByteAppends := by
  refine fun d s => ⟨fun idle => ?refused, fun loading => ?staged⟩
  case refused =>
    exact ⟨_, exec_alphaByte_of_not_loading d idle, raiseCmdError_cmdErr .., raiseCmdError_frame _ _ s⟩
  case staged =>
    refine ⟨_, exec_alphaByte_of_loading d loading, fun below => ?below, fun full => ?full, fun past => ?past,
      stageByte_order .., (stageByte_loading ..).trans loading, withStaging_frame s _⟩
    case below =>
      rw [State.withStaging_staging, stageByte_of_lt d below]
      refine ⟨by bv_omega, fun i => ?_⟩
      simp only [Table.get_set, Fin.ext_iff]
    case full =>
      rw [State.withStaging_staging, stageByte_of_eq d full]
      exact ⟨rfl, rfl⟩
    case past => exact stageByte_of_gt d past

/-- Settles O16: a position before which every check passes is the first to fail, whichever of its two checks fails. -/
theorem commitReportsFirstError : Obligations.CommitReportsFirstError := by
  intro s loading closed
  refine ⟨_, exec_alphaCommit_of_loading loading closed, commitStaged_staging s, fun len => ?length,
    fun len j before => ?position, fun len legal => ?valid, commitStaged_frame_of_error⟩
  case length => exact commitStaged_alphaErr_of_error (validate_of_length_ne len)
  case position =>
    have passed : ∀ i, i < j → checkPosition s.staging.bytes i = none :=
      fun i hi => checkPosition_none.mpr (before i hi)
    have reported {e : AlphaErr} (fails : checkPosition s.staging.bytes j = some e) :
        (commitStaged s).alphaErr = e :=
      commitStaged_alphaErr_of_error (len ▸ validate_of_first passed fails)
    exact ⟨fun bad => reported (checkPosition_unprintable bad),
      fun good dup => reported (checkPosition_duplicate good dup)⟩
  case valid =>
    rw [commitStaged_of_ok (len ▸ validate_of_legal legal)]
    rfl

/-- Settles O17: the three commands are one operation, refused while a session is open; the installed tables are inverse
because the preset is a legal alphabet. -/
theorem presetInstallsItsAlphabet : Obligations.PresetInstallsItsAlphabet := by
  intro p s
  rw [exec_presetCommand]
  refine ⟨fun opened => ?busy, fun closed => ?installed⟩
  case busy =>
    exact ⟨_, installPreset_of_open p _ opened, raiseCmdError_cmdErr .., raiseCmdError_frame _ _ s⟩
  case installed =>
    have tables := installAlphabet_inverse (presetTable_legal p).distinct (presetOrder p) (presetSrc p)
    refine ⟨_, installPreset_of_closed p _ closed, rfl, tables, ?order, ?source, rfl, ?frame⟩
    case order => cases p <;> rfl
    case source => cases p <;> rfl
    case frame => simp [keepsAllBut_iff]

/-- Settles O11: the symbols, orders and ids by the tables as written, legality by `presetTable_legal`. -/
theorem presetContents : Obligations.PresetContents :=
  ⟨by decide, by decide, by decide, rfl, rfl, rfl, rfl, rfl, rfl, presetTable_legal⟩

/-- Settles O13: the command writes the staging state alone, and of it all but the staged bytes. -/
theorem alphaBeginStartsLoad : Obligations.AlphaBeginStartsLoad :=
  fun _ s => ⟨_, rfl, rfl, rfl, rfl, rfl, withStaging_frame s _⟩

end Sys2Proof.Machine
end

section
/-! The length unit (41_length.md): how the counts of bytes and symbols split over whole groups and the rest, how the two
lengths compare with those counts, that a 24-bit operand gives a length below 2^32, and the outcome of each command said
once; then the two statements of the family. -/

namespace Sys2Proof.Machine

/-! ## Whole groups and the rest: five bytes are eight symbols -/

theorem encodedCount_eq_groups (n : Nat) : encodedCount n = n / 5 * 8 + (8 * (n % 5) + 4) / 5 := by
  rw [encodedCount]
  omega

theorem decodedCount_inverse_eq_groups (m : Nat) :
    decodedCount .inverse m = m / 8 * 5 + (5 * (m % 8) + 3) / 8 := by
  rw [decodedCount]
  omega

theorem decodedCount_normal_eq_groups (m : Nat) : decodedCount .normal m = m / 8 * 5 + 5 * (m % 8) / 8 := by
  rw [decodedCount]
  omega

/-! ## The lengths against the counts (R131, R132) -/

/-- The whole groups agree; the excess is that of the rest alone. -/
theorem encodedLength_eq_encodedCount_add (n : Nat) :
    encodedLength n = encodedCount n + (if n % 5 ≤ 2 then 1 else 2) := by
  rw [encodedLength, encodedCount_eq_groups]
  split <;> omega

/-- In Inverse order the first symbol past the whole groups already gives a byte (R183), so the bound is still met. -/
theorem decodedLengthUpperBound_eq_inverse_iff (m : Nat) :
    decodedLengthUpperBound m = decodedCount .inverse m ↔ m % 8 ≤ 1 := by
  rw [decodedLengthUpperBound, decodedCount_inverse_eq_groups]
  omega

theorem decodedLengthUpperBound_eq_normal_iff (m : Nat) :
    decodedLengthUpperBound m = decodedCount .normal m ↔ m % 8 = 0 := by
  rw [decodedLengthUpperBound, decodedCount_normal_eq_groups]
  omega

/-! ## No wrap (R130) -/

theorem encodedLength_lt (n : Length) : encodedLength n.toNat < 2 ^ 32 := by
  have := n.isLt
  rw [encodedLength]
  omega

theorem decodedLengthUpperBound_lt (m : Length) : decodedLengthUpperBound m.toNat < 2 ^ 32 := by
  have := m.isLt
  rw [decodedLengthUpperBound]
  omega

/-! ## What the commands do -/

theorem zextLength_toNat (n : Length) : (zextLength n).toNat = n.toNat :=
  BitVec.toNat_setWidth_of_le (by decide)

theorem exec_lenEnc (n : Length) (s : State) :
    exec (.lenEnc n) s = .next (s.withLenOut (BitVec.ofNat 32 (encodedLength n.toNat))) := by
  rw [← zextLength_toNat]
  rfl

theorem exec_lenDec (m : Length) (s : State) :
    exec (.lenDec m) s = .next (s.withLenOut (BitVec.ofNat 32 (decodedLengthUpperBound m.toNat))) := by
  rw [← zextLength_toNat]
  rfl

theorem withLenOut_frame (s : State) (x : BitVec 32) : keepsAllBut [.lenOut] s (s.withLenOut x) := by
  simp [keepsAllBut_iff]

/-- A number that fits LEN_OUT is held there as it is. -/
theorem withLenOut_ofNat_toNat {x : Nat} (s : State) (fits : x < 2 ^ 32) :
    (s.withLenOut (BitVec.ofNat 32 x)).lenOut.toNat = x :=
  (BitVec.toNat_ofNat x 32).trans (Nat.mod_eq_of_lt fits)

/-! ## The statements -/

/-- Settles O18: the length fits LEN_OUT, and it exceeds the count by what it exceeds it on the rest mod 5. -/
theorem lenEncComputesEncodedLength : Obligations.LenEncComputesEncodedLength := by
  intro n s
  have held := withLenOut_ofNat_toNat s (encodedLength_lt n)
  exact ⟨_, exec_lenEnc n s, held, held.trans (encodedLength_eq_encodedCount_add n.toNat), withLenOut_frame s _⟩

/-- Settles O19: the bound fits LEN_OUT, and it is tight where it is tight on the rest mod 8. -/
theorem lenDecComputesUpperBound : Obligations.LenDecComputesUpperBound := by
  intro m s
  have held := withLenOut_ofNat_toNat s (decodedLengthUpperBound_lt m)
  refine ⟨_, exec_lenDec m s, held, ?inverse, ?normal, withLenOut_frame s _⟩
  case inverse => rw [held, decodedLengthUpperBound_eq_inverse_iff]
  case normal => rw [held, decodedLengthUpperBound_eq_normal_iff]

end Sys2Proof.Machine
end

section
/-! The encoder commands (42_encoder.md): their words, the outcome of each said once, and the final symbol of R150
against the table of R151; then the four statements about single commands. -/

namespace Sys2Proof.Machine

/-! ## The words of the commands (30_encoding.md R84) -/

theorem decode_encode_encStart : decode (encode .encStart) = .instr .encStart := decode_of_match_row 6 rfl

theorem decode_encode_encFinish : decode (encode .encFinish) = .instr .encFinish := decode_of_match_row 8 rfl

theorem decode_encode_encByte (d : Byte) : decode (encode (.encByte d)) = .instr (.encByte d) := by
  obtain ⟨fields, -⟩ := Laws.EncodedFields.encByte d
  have operand : (d.setWidth 24).extractLsb' 0 8 = d := by
    ext k hk
    simp [show k < 24 by omega, BitVec.getLsbD_eq_getElem hk]
  rw [decode_eq_fields, fields]
  simp [decodeFields, Instr.opc, Instr.sub, Instr.imm, Laws.EncodedFields.byte_imm_high, operand]

/-! ## What the commands do -/

theorem exec_encStart (s : State) : exec .encStart s = .next (s.withEnc
    { state := .active, phase := 0, carry := 0, pend := false, icnt := 0, ocnt := 0 }) := rfl

section
variable {s : State}

theorem exec_encByte_of_active (d : Byte) (h : s.enc.state = .active) :
    exec (.encByte d) s = .next (takeByte d s) :=
  if_pos h

theorem exec_encFinish_of_active (h : s.enc.state = .active) :
    exec .encFinish s = .next ((s.emitEnc (finalSymbols s)).withEnc s.enc.closed) :=
  if_pos h

theorem exec_encFinish_of_not_active (h : s.enc.state ≠ .active) :
    exec .encFinish s = .next (raiseCmdError .seqEnc 0x70000000 s) :=
  if_neg h

theorem finalSymbols_of_pend (h : s.enc.pend = true) :
    finalSymbols s = [fwdLookup s.alpha (finalValue s.alpha.order s.enc.phase s.enc.carry)] :=
  if_pos h

theorem finalSymbols_of_not_pend (h : s.enc.pend = false) : finalSymbols s = [] :=
  if_neg (by simp [h])

end

theorem closed_ocnt_of_pend {e : EncoderUnit} (h : e.pend = true) : e.closed.ocnt = e.ocnt + 1 :=
  if_pos h

theorem closed_ocnt_of_not_pend {e : EncoderUnit} (h : e.pend = false) : e.closed.ocnt = e.ocnt :=
  if_neg (by simp [h])

theorem emitEnc_withEnc_frame (s : State) (symbols : List Byte) (e : EncoderUnit) :
    keepsAllBut [.enc, .encOut] s ((s.emitEnc symbols).withEnc e) := by
  simp [keepsAllBut_iff]

/-! ## The final symbol -/

/-- In Normal order the final symbol has zeros below the carry, whatever bits the carry has. -/
theorem finalValue_normal (p : Fin 5) (c : BitVec 4) :
    finalValue .normal p c = c.setWidth 5 <<< (5 - carryBits p) := by
  apply BitVec.eq_of_toNat_eq
  simp [finalValue, Nat.shiftLeft_eq]

/-- The table of R151 is the value of R150 at each phase with a carry of that phase's width, and nothing at phase 0. -/
theorem finalRow_eq (o : Order) (p : Fin 5) (c : BitVec 4) (width : c.toNat < 2 ^ carryBits p) :
    finalRow o p c = if p = 0 then none else some (finalValue o p c) := by
  cases o with
  | normal => revert p c; decide
  | inverse => revert p c; decide

/-! ## The statements -/

/-- Settles O20: the table by evaluation at the five phases, the last clause by `carryOutBits_eq`. -/
theorem subcaseCounts : Obligations.SubcaseCounts := ⟨by decide, carryOutBits_eq⟩

/-- Settles O21: the command writes the encoder's registers alone. -/
theorem encStartOpensSession : Obligations.EncStartOpensSession :=
  fun s => ⟨_, exec_encStart s, rfl, rfl, rfl, rfl, rfl, rfl, by simp [keepsAllBut_iff]⟩

/-- Settles O24: refused outside a session; in one, the tag alone decides whether a symbol is emitted and counted. -/
theorem encFinishClosesSession : Obligations.EncFinishClosesSession := by
  refine fun s => ⟨fun closed => ?refused, fun active => ?closes⟩
  case refused =>
    exact ⟨_, exec_encFinish_of_not_active closed, raiseCmdError_cmdErr .., raiseCmdError_frame _ _ s⟩
  case closes =>
    refine ⟨_, exec_encFinish_of_active active, fun empty => ⟨?noSymbol, closed_ocnt_of_not_pend empty⟩,
      fun pend normal => ?normalSymbol, fun pend inverse => ?inverseSymbol, fun pend => ?count,
      rfl, rfl, rfl, rfl, rfl, emitEnc_withEnc_frame s _ _⟩
    case noSymbol => simp [finalSymbols_of_not_pend empty]
    case normalSymbol => simp [finalSymbols_of_pend pend, normal, finalValue_normal, fwdLookup_eq]
    case inverseSymbol => simp [finalSymbols_of_pend pend, inverse, finalValue, fwdLookup_eq]
    case count => rw [State.withEnc_enc, closed_ocnt_of_pend pend, BitVec.toNat_add]; rfl

/-- Settles O23: by the invariant the tag is set exactly away from phase 0, and the carry has the width at which R150's
value is the table's. -/
theorem encFinishFlushesCarry : Obligations.EncFinishFlushesCarry := by
  intro s active inv
  have row := finalRow_eq s.alpha.order s.enc.phase s.enc.carry (inv.width active)
  have pending := inv.pending active
  have next := exec_encFinish_of_active active
  obtain boundary | inside := eq_or_ne s.enc.phase 0
  · have empty : s.enc.pend = false := by simpa [boundary] using pending
    have kept : s.enc.ocnt.toNat % 2 ^ 32 = s.enc.ocnt.toNat := Nat.mod_eq_of_lt s.enc.ocnt.isLt
    exact ⟨_, next, by simp [row.trans (if_pos boundary), finalSymbols_of_not_pend empty],
      by rw [if_pos boundary, Nat.add_zero, kept]; exact congrArg _ (closed_ocnt_of_not_pend empty),
      emitEnc_withEnc_frame s _ _⟩
  · have full : s.enc.pend = true := pending.mpr inside
    exact ⟨_, next, by simp [row.trans (if_neg inside), finalSymbols_of_pend full, fwdLookup_eq],
      by simp [inside, closed_ocnt_of_pend full], emitEnc_withEnc_frame s _ _⟩

end Sys2Proof.Machine
end

section
/-! Encoder sessions (42_encoder.md R153, R154). Both orders take the input's bits in a fixed order, a stream: after n
bytes of a session the complete 5-bit groups of the stream have been emitted and the carry holds the bits that follow
them. The two orders differ only in where a bit of a number stands in the stream (`streamBit`, `bitPlace`), so the
induction over the bytes is made once. -/

namespace Sys2Proof.Machine

/-! ## The phase and the counts after n bytes (R142, R152) -/

/-- The phase after n bytes of a session: `n mod 5` (R142). -/
def phaseAfter (n : Nat) : Fin 5 := ⟨n % 5, Nat.mod_lt n (by decide)⟩

/-- The complete 5-bit groups in n bytes: the symbols emitted before ENC_FINISH. -/
def completeGroups (n : Nat) : Nat := 8 * n / 5

theorem carryBits_phaseAfter (n : Nat) : carryBits (phaseAfter n) = 8 * n % 5 := by
  have table : ∀ p : Fin 5, carryBits p = 8 * p.val % 5 := by decide
  rw [table, phaseAfter, Nat.mul_mod_mod]

/-- The bits taken are those of the complete groups and those of the carry. -/
theorem groups_add_carryBits (n : Nat) : 5 * completeGroups n + carryBits (phaseAfter n) = 8 * n := by
  rw [carryBits_phaseAfter, completeGroups, Nat.div_add_mod]

theorem nextPhase_phaseAfter (n : Nat) : nextPhase (phaseAfter n) = phaseAfter (n + 1) := by
  simp [nextPhase, phaseAfter, Fin.ext_iff, Fin.val_add]

theorem completeGroups_succ (n : Nat) : completeGroups (n + 1) = completeGroups n + symbolCount (phaseAfter n) := by
  rw [symbolCount, availableBits, carryBits_phaseAfter, completeGroups, completeGroups]
  omega

/-- At the end of a session a carry makes one more symbol. -/
theorem encodedCount_eq_completeGroups (n : Nat) :
    encodedCount n = completeGroups n + (if phaseAfter n = 0 then 0 else 1) := by
  have table : ∀ p : Fin 5, (8 * p.val + 4) / 5 = 8 * p.val / 5 + (if p = 0 then 0 else 1) := by decide
  have rest : (8 * (n % 5) + 4) / 5 = 8 * (n % 5) / 5 + (if phaseAfter n = 0 then 0 else 1) := table (phaseAfter n)
  rw [encodedCount_eq_groups, rest, completeGroups]
  omega

theorem carryBits_le_four (p : Fin 5) : carryBits p ≤ 4 := by
  revert p
  decide

theorem availableBits_eq (p : Fin 5) : availableBits p = 5 * symbolCount p + carryOutBits p := by
  revert p
  decide

/-! ## The stream of input bits -/

/-- Bit i of the input in the order the bits are taken, 0 past its end: in Normal order each byte from bit 7 down
(R153), in Inverse order from bit 0 up, which is bit i of the little-endian integer (R154). -/
def streamBit : Order → List Byte → Nat → Bool
  | .normal, bytes, i => (bitString bytes).getD i false
  | .inverse, bytes, i => (littleEndian bytes).testBit i

/-- Where bit k of a number of w bits stands among them in the order they are taken: Normal order takes the highest
first, Inverse order the lowest. The same map goes back. -/
def bitPlace : Order → Nat → Nat → Nat
  | .normal, w, k => w - 1 - k
  | .inverse, _, k => k

@[simp] theorem bitPlace_normal (w k : Nat) : bitPlace .normal w k = w - 1 - k := rfl

@[simp] theorem bitPlace_inverse (w k : Nat) : bitPlace .inverse w k = k := rfl

theorem bitPlace_lt (o : Order) {w k : Nat} (h : k < w) : bitPlace o w k < w := by
  cases o with
  | normal => rw [bitPlace_normal]; omega
  | inverse => exact h

theorem bitPlace_bitPlace (o : Order) {w k : Nat} (h : k < w) : bitPlace o w (bitPlace o w k) = k := by
  cases o with
  | normal => rw [bitPlace_normal, bitPlace_normal]; omega
  | inverse => rfl

theorem bitString_cons (b : Byte) (rest : List Byte) :
    bitString (b :: rest) = (List.range 8).map (fun t => b.getLsbD (7 - t)) ++ bitString rest := rfl

theorem streamBit_cons_of_lt (o : Order) (b : Byte) (rest : List Byte) {i : Nat} (h : i < 8) :
    streamBit o (b :: rest) i = b.getLsbD (bitPlace o 8 i) := by
  cases o with
  | normal => simp [streamBit, bitPlace, bitString_cons, h, List.getElem?_append_left]
  | inverse =>
    rw [streamBit, littleEndian, Nat.add_comm, Nat.testBit_two_pow_mul_add _ b.isLt, if_pos h]
    rfl

theorem streamBit_cons_add (o : Order) (b : Byte) (rest : List Byte) (i : Nat) :
    streamBit o (b :: rest) (8 + i) = streamBit o rest i := by
  cases o with
  | normal => simp [streamBit, bitString_cons, List.getElem?_append_right]
  | inverse =>
    rw [streamBit, littleEndian, Nat.add_comm, Nat.testBit_two_pow_mul_add _ b.isLt, if_neg (by omega),
      Nat.add_sub_cancel_left]
    rfl

/-- The bits of the input do not change when a byte is added after it. -/
theorem streamBit_append_of_lt (o : Order) (bytes : List Byte) (d : Byte) {i : Nat} (h : i < 8 * bytes.length) :
    streamBit o (bytes ++ [d]) i = streamBit o bytes i := by
  induction bytes generalizing i with
  | nil => simp at h
  | cons b rest ih =>
    rw [List.length_cons] at h
    obtain head | ⟨k, rfl⟩ := (lt_or_ge i 8).imp_right Nat.exists_eq_add_of_le
    · rw [List.cons_append, streamBit_cons_of_lt o _ _ head, streamBit_cons_of_lt o _ _ head]
    · rw [List.cons_append, streamBit_cons_add, streamBit_cons_add, ih (by omega)]

theorem streamBit_append_add (o : Order) (bytes : List Byte) (d : Byte) {i : Nat} (h : i < 8) :
    streamBit o (bytes ++ [d]) (8 * bytes.length + i) = d.getLsbD (bitPlace o 8 i) := by
  induction bytes with
  | nil => simpa using streamBit_cons_of_lt o d [] h
  | cons b rest ih =>
    rw [List.cons_append, List.length_cons, show 8 * (rest.length + 1) + i = 8 + (8 * rest.length + i) by omega,
      streamBit_cons_add, ih]

theorem streamBit_past (o : Order) (bytes : List Byte) {i : Nat} (h : 8 * bytes.length ≤ i) :
    streamBit o bytes i = false := by
  induction bytes generalizing i with
  | nil => cases o <;> simp [streamBit, bitString, littleEndian]
  | cons b rest ih =>
    rw [List.length_cons] at h
    obtain ⟨k, rfl⟩ : ∃ k, i = 8 + k := Nat.exists_eq_add_of_le (by omega)
    rw [streamBit_cons_add, ih (by omega)]

/-! ## Groups and carry -/

/-- Group j of the input, bits 5j to 5j+4 of its stream. -/
def inputGroup (o : Order) (bytes : List Byte) (j : Nat) : Value :=
  BitVec.ofFnLE fun k : Fin 5 => streamBit o bytes (5 * j + bitPlace o 5 k)

/-- The bits after the complete groups, at the low end of ENC_CARRY. -/
def pendingCarry (o : Order) (bytes : List Byte) : BitVec 4 :=
  let width := carryBits (phaseAfter bytes.length)
  BitVec.ofFnLE fun k : Fin 4 =>
    decide (k < width) && streamBit o bytes (5 * completeGroups bytes.length + bitPlace o width k)

theorem inputGroup_getElem (o : Order) (bytes : List Byte) (j : Nat) {k : Nat} (h : k < 5) :
    (inputGroup o bytes j)[k] = streamBit o bytes (5 * j + bitPlace o 5 k) := by
  simp [inputGroup]

theorem pendingCarry_getElem (o : Order) (bytes : List Byte) {k : Nat} (h : k < 4) :
    (pendingCarry o bytes)[k] = (decide (k < carryBits (phaseAfter bytes.length))
      && streamBit o bytes
        (5 * completeGroups bytes.length + bitPlace o (carryBits (phaseAfter bytes.length)) k)) :=
  BitVec.getElem_ofFnLE _ k h

theorem pendingCarry_getLsbD (o : Order) (bytes : List Byte) {k : Nat}
    (h : k < carryBits (phaseAfter bytes.length)) : (pendingCarry o bytes).getLsbD k
      = streamBit o bytes (5 * completeGroups bytes.length + bitPlace o (carryBits (phaseAfter bytes.length)) k) := by
  have fits : k < 4 := lt_of_lt_of_le h (carryBits_le_four _)
  rw [BitVec.getLsbD_eq_getElem fits, pendingCarry_getElem, decide_eq_true h, Bool.true_and]

/-- A complete group is settled: a later byte does not change it. -/
theorem inputGroup_append_of_lt (o : Order) (bytes : List Byte) (d : Byte) {j : Nat}
    (h : j < completeGroups bytes.length) : inputGroup o (bytes ++ [d]) j = inputGroup o bytes j := by
  have bits := groups_add_carryBits bytes.length
  ext k hk
  have := bitPlace_lt o hk
  rw [inputGroup_getElem, inputGroup_getElem, streamBit_append_of_lt o bytes d (by omega)]

/-! ## The window: the T bits of carry and byte (R145, R146) -/

/-- `x` of R145 and R146. -/
def byteWindow : Order → Fin 5 → BitVec 4 → Byte → Nat
  | .normal, p, c, d => (c.toNat % 2 ^ carryBits p) <<< 8 ||| d.toNat
  | .inverse, p, c, d => c.toNat % 2 ^ carryBits p ||| d.toNat <<< carryBits p

theorem ofNat_getElem {w x k : Nat} (h : k < w) : (BitVec.ofNat w x)[k] = x.testBit k := by
  rw [← BitVec.getLsbD_eq_getElem, BitVec.getLsbD_ofNat, decide_eq_true h, Bool.true_and]

theorem byteWindow_normal_testBit (p : Fin 5) (c : BitVec 4) (d : Byte) (i : Nat) :
    (byteWindow .normal p c d).testBit i
      = if i < 8 then d.getLsbD i else decide (i - 8 < carryBits p) && c.getLsbD (i - 8) := by
  simp only [byteWindow, Nat.testBit_or, Nat.testBit_shiftLeft, Nat.testBit_mod_two_pow, BitVec.testBit_toNat]
  obtain byte | carry := lt_or_ge i 8
  · simp [byte, Nat.not_le.mpr byte]
  · simp [carry, Nat.not_lt.mpr carry]

theorem byteWindow_inverse_testBit (p : Fin 5) (c : BitVec 4) (d : Byte) (i : Nat) :
    (byteWindow .inverse p c d).testBit i = if i < carryBits p then c.getLsbD i else d.getLsbD (i - carryBits p) := by
  simp only [byteWindow, Nat.testBit_or, Nat.testBit_shiftLeft, Nat.testBit_mod_two_pow, BitVec.testBit_toNat]
  obtain carry | byte := lt_or_ge i (carryBits p)
  · simp [carry, Nat.not_le.mpr carry]
  · simp [byte, Nat.not_lt.mpr byte]

/-- The r-th bit of the window that is taken: those of the carry first, then those of the byte. -/
theorem byteWindow_testBit (o : Order) (p : Fin 5) (c : BitVec 4) (d : Byte) {r : Nat} (h : r < availableBits p) :
    (byteWindow o p c d).testBit (bitPlace o (availableBits p) r)
      = if r < carryBits p then c.getLsbD (bitPlace o (carryBits p) r)
        else d.getLsbD (bitPlace o 8 (r - carryBits p)) := by
  cases o with
  | normal =>
    rw [availableBits] at *
    obtain carry | byte := lt_or_ge r (carryBits p)
    · have place : carryBits p + 8 - 1 - r - 8 = carryBits p - 1 - r := by omega
      rw [if_pos carry, bitPlace, bitPlace, byteWindow_normal_testBit, if_neg (by omega), place,
        decide_eq_true (by omega), Bool.true_and]
    · have place : carryBits p + 8 - 1 - r = 8 - 1 - (r - carryBits p) := by omega
      rw [if_neg (by omega), bitPlace, bitPlace, byteWindow_normal_testBit, if_pos (by omega), place]
  | inverse => exact byteWindow_inverse_testBit p c d r

/-- The values of one byte are the groups of its window. -/
theorem peel_values (o : Order) (p : Fin 5) (c : BitVec 4) (d : Byte) :
    (peel o p c d).values = (List.range (symbolCount p)).map fun j => BitVec.ofFnLE fun k : Fin 5 =>
      (byteWindow o p c d).testBit (bitPlace o (availableBits p) (5 * j + bitPlace o 5 k)) := by
  have width := availableBits_eq p
  cases o with
  | normal =>
    refine List.map_congr_left fun j hj => ?_
    have hj := List.mem_range.mp hj
    ext k hk
    have place : availableBits p - 5 - 5 * j + k = availableBits p - 1 - (5 * j + (5 - 1 - k)) := by omega
    rw [ofNat_getElem hk, BitVec.getElem_ofFnLE, Nat.testBit_shiftRight, place]
    rfl
  | inverse =>
    refine List.map_congr_left fun j _ => ?_
    ext k hk
    rw [ofNat_getElem hk, BitVec.getElem_ofFnLE, Nat.testBit_shiftRight]
    rfl

/-- The new carry is what the groups leave of the window. -/
theorem peel_carry (o : Order) (p : Fin 5) (c : BitVec 4) (d : Byte) :
    (peel o p c d).carry = BitVec.ofFnLE fun k : Fin 4 => decide (k < carryOutBits p)
      && (byteWindow o p c d).testBit
        (bitPlace o (availableBits p) (5 * symbolCount p + bitPlace o (carryOutBits p) k)) := by
  have width := availableBits_eq p
  ext k hk
  rw [BitVec.getElem_ofFnLE]
  cases o with
  | normal =>
    change (BitVec.ofNat 4 (byteWindow .normal p c d % 2 ^ carryOutBits p))[k] = _
    rw [ofNat_getElem hk, Nat.testBit_mod_two_pow]
    obtain held | above := lt_or_ge k (carryOutBits p)
    · have place : availableBits p - 1 - (5 * symbolCount p + (carryOutBits p - 1 - k)) = k := by omega
      simp only [bitPlace, place]
    · simp [Nat.not_lt.mpr above]
  | inverse =>
    change (BitVec.ofNat 4 (byteWindow .inverse p c d >>> (5 * symbolCount p)))[k] = _
    rw [ofNat_getElem hk, Nat.testBit_shiftRight]
    obtain held | above := lt_or_ge k (carryOutBits p)
    · rw [decide_eq_true held, Bool.true_and, bitPlace, bitPlace]
    · rw [availableBits] at width
      rw [decide_eq_false (Nat.not_lt.mpr above), Bool.false_and, byteWindow_inverse_testBit, if_neg (by omega),
        BitVec.getLsbD_of_ge d _ (by omega)]

/-- The final symbol's bits in the order they are taken: those of the carry, then zeros. -/
theorem finalValue_getElem (o : Order) (p : Fin 5) (c : BitVec 4) (width : c.toNat < 2 ^ carryBits p) {k : Nat}
    (hk : k < 5) : (finalValue o p c)[k]
      = (decide (bitPlace o 5 k < carryBits p) && c.getLsbD (bitPlace o (carryBits p) (bitPlace o 5 k))) := by
  have := carryBits_le_four p
  cases o with
  | normal =>
    rw [finalValue_normal]
    obtain carry | padding := lt_or_ge (4 - k) (carryBits p)
    · simp [bitPlace, carry, show ¬ k < 5 - carryBits p by omega,
        show carryBits p - 1 - (4 - k) = k - (5 - carryBits p) by omega]
    · simp [bitPlace, show k < 5 - carryBits p by omega, Nat.not_lt.mpr padding]
  | inverse =>
    obtain carry | padding := lt_or_ge k (carryBits p)
    · simp [finalValue, bitPlace, carry]
    · have zero : c.getLsbD k = false :=
        Nat.testBit_lt_two_pow (lt_of_lt_of_le width (Nat.pow_le_pow_right (by decide) padding))
      simp [finalValue, bitPlace, zero]

/-! ## A byte and the stream -/

section
variable (o : Order) (bytes : List Byte)

/-- The window of the next byte is the stream from the first bit that is in no complete group. -/
theorem byteWindow_streamBit (d : Byte) {r : Nat}
    (h : r < availableBits (phaseAfter bytes.length)) :
    (byteWindow o (phaseAfter bytes.length) (pendingCarry o bytes) d).testBit
        (bitPlace o (availableBits (phaseAfter bytes.length)) r)
      = streamBit o (bytes ++ [d]) (5 * completeGroups bytes.length + r) := by
  have bits := groups_add_carryBits bytes.length
  rw [byteWindow_testBit o _ _ d h]
  rw [availableBits] at h
  split
  · next carry =>
    rw [pendingCarry_getLsbD o bytes (bitPlace_lt o carry), bitPlace_bitPlace o carry,
      streamBit_append_of_lt o bytes d (by omega)]
  · next byte =>
    rw [← streamBit_append_add o bytes d (by omega)]
    congr 1
    omega

theorem peel_values_eq_inputGroups (d : Byte) :
    (peel o (phaseAfter bytes.length) (pendingCarry o bytes) d).values
      = (List.range (symbolCount (phaseAfter bytes.length))).map fun j =>
          inputGroup o (bytes ++ [d]) (completeGroups bytes.length + j) := by
  have width := availableBits_eq (phaseAfter bytes.length)
  rw [peel_values]
  refine List.map_congr_left fun j hj => ?_
  have hj := List.mem_range.mp hj
  ext k hk
  have inside : 5 * j + bitPlace o 5 k < availableBits (phaseAfter bytes.length) := by
    have := bitPlace_lt o hk
    omega
  rw [BitVec.getElem_ofFnLE, inputGroup_getElem, byteWindow_streamBit o bytes d inside, Nat.mul_add, Nat.add_assoc]

theorem peel_carry_eq_pendingCarry (d : Byte) :
    (peel o (phaseAfter bytes.length) (pendingCarry o bytes) d).carry = pendingCarry o (bytes ++ [d]) := by
  have width := availableBits_eq (phaseAfter bytes.length)
  have out : carryOutBits (phaseAfter bytes.length) = carryBits (phaseAfter (bytes.length + 1)) := by
    rw [carryOutBits_eq, nextPhase_phaseAfter]
  rw [peel_carry]
  ext k hk
  rw [BitVec.getElem_ofFnLE, pendingCarry_getElem, List.length_append, List.length_singleton, ← out,
    completeGroups_succ, Nat.mul_add, Nat.add_assoc]
  obtain held | above := lt_or_ge k (carryOutBits (phaseAfter bytes.length))
  · have inside : 5 * symbolCount (phaseAfter bytes.length) + bitPlace o (carryOutBits (phaseAfter bytes.length)) k
        < availableBits (phaseAfter bytes.length) := by
      have := bitPlace_lt o held
      omega
    rw [byteWindow_streamBit o bytes d inside]
  · rw [decide_eq_false (Nat.not_lt.mpr above), Bool.false_and, Bool.false_and]

theorem pendingCarry_toNat_lt : (pendingCarry o bytes).toNat < 2 ^ carryBits (phaseAfter bytes.length) := by
  apply Nat.lt_pow_two_of_testBit
  intro k hk
  rw [BitVec.testBit_toNat, pendingCarry, BitVec.getLsbD_ofFnLE]
  split
  · simp [Nat.not_lt.mpr hk]
  · rfl

/-- The final symbol is the group after the complete ones, zeros past the end of the input. -/
theorem finalValue_eq_inputGroup :
    finalValue o (phaseAfter bytes.length) (pendingCarry o bytes)
      = inputGroup o bytes (completeGroups bytes.length) := by
  have bits := groups_add_carryBits bytes.length
  ext k hk
  rw [finalValue_getElem o _ _ (pendingCarry_toNat_lt o bytes) hk, inputGroup_getElem]
  obtain carry | padding := lt_or_ge (bitPlace o 5 k) (carryBits (phaseAfter bytes.length))
  · rw [decide_eq_true carry, Bool.true_and, pendingCarry_getLsbD o bytes (bitPlace_lt o carry),
      bitPlace_bitPlace o carry]
  · rw [decide_eq_false (Nat.not_lt.mpr padding), Bool.false_and, streamBit_past o bytes (by omega)]

end

/-! ## A session -/

/-- The symbols of the first groups of the input. -/
def groupSymbols (a : AlphabetUnit) (bytes : List Byte) (count : Nat) : List Byte :=
  (List.range count).map fun j => fwdLookup a (inputGroup a.order bytes j)

/-- The encoder in a session that has taken `bytes`. -/
def openUnit (o : Order) (bytes : List Byte) : EncoderUnit where
  state := .active
  phase := phaseAfter bytes.length
  carry := pendingCarry o bytes
  pend := pendingAt (phaseAfter bytes.length)
  icnt := BitVec.ofNat 32 bytes.length
  ocnt := BitVec.ofNat 32 (completeGroups bytes.length)

/-- The encoder after a session of `bytes`. -/
def doneUnit (bytes : List Byte) : EncoderUnit where
  state := .done
  phase := phaseAfter bytes.length
  carry := 0
  pend := false
  icnt := BitVec.ofNat 32 bytes.length
  ocnt := BitVec.ofNat 32 (encodedCount bytes.length)

section
variable (s : State)

theorem withPort_withEnc (port : List PortInput) (e : EncoderUnit) :
    (s.withPort port).withEnc e = (s.withEnc e).withPort port := rfl

theorem withPort_emitEnc (port : List PortInput) (xs : List Byte) :
    (s.withPort port).emitEnc xs = (s.emitEnc xs).withPort port := rfl

theorem withEnc_emitEnc (e : EncoderUnit) (xs : List Byte) : (s.withEnc e).emitEnc xs = (s.emitEnc xs).withEnc e := rfl

theorem emitEnc_emitEnc (xs ys : List Byte) : (s.emitEnc xs).emitEnc ys = s.emitEnc (xs ++ ys) := by
  simp [State.emitEnc]

end

/-- `s` in a session that has taken `bytes`. -/
def midSession (s : State) (bytes : List Byte) (port : List PortInput) : State :=
  ((s.emitEnc (groupSymbols s.alpha bytes (completeGroups bytes.length))).withEnc
    (openUnit s.alpha.order bytes)).withPort port

/-- `s` after a session of `bytes`. -/
def afterSession (s : State) (bytes : List Byte) (port : List PortInput) : State :=
  ((s.emitEnc (groupSymbols s.alpha bytes (encodedCount bytes.length))).withEnc (doneUnit bytes)).withPort port

theorem openUnit_nil (o : Order) : openUnit o [] =
    { state := .active, phase := 0, carry := 0, pend := false, icnt := 0, ocnt := 0 } := by
  cases o <;> rfl

theorem groupSymbols_append_singleton (a : AlphabetUnit) (bytes : List Byte) (d : Byte) :
    groupSymbols a (bytes ++ [d]) (completeGroups (bytes ++ [d]).length)
      = groupSymbols a bytes (completeGroups bytes.length)
        ++ (peel a.order (phaseAfter bytes.length) (pendingCarry a.order bytes) d).values.map (fwdLookup a) := by
  rw [peel_values_eq_inputGroups, List.length_append, List.length_singleton, completeGroups_succ, groupSymbols,
    List.range_add, List.map_append, List.map_map, List.map_map]
  congr 1
  refine List.map_congr_left fun j hj => ?_
  rw [inputGroup_append_of_lt _ _ _ (List.mem_range.mp hj)]

theorem afterByte_openUnit (o : Order) (bytes : List Byte) (d : Byte) :
    (openUnit o bytes).afterByte (peel o (phaseAfter bytes.length) (pendingCarry o bytes) d)
      = openUnit o (bytes ++ [d]) := by
  simp [EncoderUnit.afterByte, openUnit, peel_carry_eq_pendingCarry, nextPhase_phaseAfter, completeGroups_succ,
    BitVec.ofNat_add]

theorem closed_openUnit (o : Order) (bytes : List Byte) : (openUnit o bytes).closed = doneUnit bytes := by
  obtain boundary | inside := eq_or_ne (phaseAfter bytes.length) 0
  · simp [EncoderUnit.closed, openUnit, doneUnit, pendingAt, encodedCount_eq_completeGroups, boundary]
  · simp [EncoderUnit.closed, openUnit, doneUnit, pendingAt, encodedCount_eq_completeGroups, inside,
      BitVec.ofNat_add]

section
variable (s : State) (bytes : List Byte) (port : List PortInput)

theorem takeByte_midSession (d : Byte) :
    takeByte d (midSession s bytes port) = midSession s (bytes ++ [d]) port := by
  rw [midSession, midSession, ← afterByte_openUnit, groupSymbols_append_singleton]
  simp [takeByte, openUnit, withPort_withEnc, withPort_emitEnc, withEnc_emitEnc, emitEnc_emitEnc]

theorem finalSymbols_midSession : groupSymbols s.alpha bytes (completeGroups bytes.length)
    ++ finalSymbols (midSession s bytes port) = groupSymbols s.alpha bytes (encodedCount bytes.length) := by
  rw [encodedCount_eq_completeGroups]
  obtain boundary | inside := eq_or_ne (phaseAfter bytes.length) 0
  · have empty : (midSession s bytes port).enc.pend = false := by simp [midSession, openUnit, pendingAt, boundary]
    rw [finalSymbols_of_not_pend empty, if_pos boundary, Nat.add_zero, List.append_nil]
  · have full : (midSession s bytes port).enc.pend = true := by simp [midSession, openUnit, pendingAt, inside]
    rw [finalSymbols_of_pend full, if_neg inside, groupSymbols, groupSymbols, List.range_succ, List.map_append,
      List.map_singleton, ← finalValue_eq_inputGroup]
    rfl

theorem exec_encFinish_midSession : exec .encFinish (midSession s bytes port) = .next (afterSession s bytes port) := by
  rw [exec_encFinish_of_active rfl, afterSession, ← finalSymbols_midSession s bytes port,
    ← closed_openUnit s.alpha.order]
  simp [midSession, withPort_withEnc, withPort_emitEnc, withEnc_emitEnc, emitEnc_emitEnc]

end

/-! ## The steps of a session -/

/-- A step takes the command whose word waits first. -/
theorem step_sends {s : State} {i : Instr} {rest : List PortInput} (h : s.port = sends i :: rest)
    (legal : decode (encode i) = .instr i) : step s = exec i (s.withPort rest) := by
  rw [step_cons h]
  change acceptWord (encode i) _ = _
  rw [acceptWord, legal]

theorem runSteps_succ_of_step {k : Nat} {s t : State} (h : step s = .next t) :
    runSteps (k + 1) s = runSteps k t := by
  rw [runSteps, h]

theorem step_encStart {s : State} {rest : List PortInput} (h : s.port = sends .encStart :: rest) :
    step s = .next (midSession s [] rest) := by
  rw [step_sends h decode_encode_encStart, exec_encStart]
  simp [midSession, groupSymbols, completeGroups, openUnit_nil, withPort_withEnc]

theorem step_encByte (s : State) (bytes : List Byte) (d : Byte) (rest : List PortInput) :
    step (midSession s bytes (sends (.encByte d) :: rest)) = .next (midSession s (bytes ++ [d]) rest) := by
  rw [step_sends rfl (decode_encode_encByte d)]
  exact (exec_encByte_of_active d rfl).trans (congrArg _ (takeByte_midSession s bytes rest d))

theorem step_encFinish (s : State) (bytes : List Byte) (rest : List PortInput) :
    step (midSession s bytes (sends .encFinish :: rest)) = .next (afterSession s bytes rest) := by
  rw [step_sends rfl decode_encode_encFinish]
  exact exec_encFinish_midSession s bytes rest

theorem runSteps_encBytes (s : State) (before bytes : List Byte) (rest : List PortInput) :
    runSteps bytes.length (midSession s before ((bytes.map fun b => sends (.encByte b)) ++ rest))
      = .next (midSession s (before ++ bytes) rest) := by
  induction bytes generalizing before with
  | nil => rw [List.append_nil]; rfl
  | cons d bytes ih =>
    rw [List.map_cons, List.cons_append, List.length_cons, runSteps_succ_of_step (step_encByte ..), ih,
      List.append_assoc, List.singleton_append]

/-- A session takes its commands and emits the groups of its bytes, from any state. -/
theorem runSteps_encodeSession {s : State} {bytes : List Byte} {rest : List PortInput}
    (h : s.port = encodeSession bytes ++ rest) :
    runSteps (bytes.length + 2) s = .next (afterSession s bytes rest) := by
  rw [encodeSession, List.append_assoc, List.cons_append, List.singleton_append] at h
  rw [runSteps_succ_of_step (step_encStart h), runSteps_add (runSteps_encBytes s [] bytes _)]
  exact runSteps_succ_of_step (step_encFinish s bytes rest)

theorem afterSession_frame (s : State) (bytes : List Byte) (rest : List PortInput) :
    keepsAllBut [.enc, .encOut, .port] s (afterSession s bytes rest) := by
  simp [keepsAllBut_iff, afterSession]

/-! ## The groups in the words of R153 and R154 -/

theorem inputGroup_eq_ofNat (o : Order) (bytes : List Byte) (j : Nat) :
    inputGroup o bytes j = BitVec.ofNat 5 (Nat.ofBits fun k : Fin 5 => streamBit o bytes (5 * j + bitPlace o 5 k)) := by
  ext k hk
  rw [inputGroup_getElem, ofNat_getElem hk, Nat.testBit_ofBits_lt _ _ hk]

theorem inputGroup_inverse (bytes : List Byte) (j : Nat) :
    inputGroup .inverse bytes j = BitVec.ofNat 5 (littleEndian bytes / 2 ^ (5 * j) % 32) := by
  have digit := Nat.ofBits_testBit (littleEndian bytes >>> (5 * j)) 5
  simp only [Nat.testBit_shiftRight] at digit
  rw [inputGroup_eq_ofNat, ← Nat.shiftRight_eq_div_pow]
  exact congrArg _ digit

theorem bitAt_bitString (bytes : List Byte) (i : Nat) :
    bitAt (bitString bytes) i = (streamBit .normal bytes i).toNat := by
  rw [bitAt, streamBit]
  cases (bitString bytes).getD i false <;> rfl

theorem ofBits_five (f : Fin 5 → Bool) : Nat.ofBits f = (f 4).toNat * 2 ^ 4 + (f 3).toNat * 2 ^ 3
    + (f 2).toNat * 2 ^ 2 + (f 1).toNat * 2 + (f 0).toNat := by
  change 2 * (2 * (2 * (2 * (2 * 0 + (f 4).toNat) + (f 3).toNat) + (f 2).toNat) + (f 1).toNat) + (f 0).toNat = _
  omega

theorem inputGroup_normal (bytes : List Byte) (j : Nat) : inputGroup .normal bytes j =
    BitVec.ofNat 5 (bitAt (bitString bytes) (5 * j) * 2 ^ 4 + bitAt (bitString bytes) (5 * j + 1) * 2 ^ 3
      + bitAt (bitString bytes) (5 * j + 2) * 2 ^ 2 + bitAt (bitString bytes) (5 * j + 3) * 2
      + bitAt (bitString bytes) (5 * j + 4)) := by
  rw [inputGroup_eq_ofNat, ofBits_five]
  simp only [bitAt_bitString]
  rfl

theorem groupSymbols_of_inverse {a : AlphabetUnit} (h : a.order = .inverse) (bytes : List Byte) :
    groupSymbols a bytes (encodedCount bytes.length) = inverseSymbols a bytes := by
  simp only [groupSymbols, inverseSymbols, h, inputGroup_inverse]

theorem groupSymbols_of_normal {a : AlphabetUnit} (h : a.order = .normal) (bytes : List Byte) :
    groupSymbols a bytes (encodedCount bytes.length) = normalSymbols a bytes := by
  simp only [groupSymbols, normalSymbols, h, inputGroup_normal]

/-! ## The statements -/

/-- Settles O25: a session in either order emits the groups of the input's bits in the order they are taken, and in
Inverse order those are the digits of the little-endian integer. -/
theorem inverseSessionEmitsLittleEndianGroups : Obligations.InverseSessionEmitsLittleEndianGroups := by
  intro s bytes rest inverse port
  exact ⟨_, runSteps_encodeSession port, congrArg _ (groupSymbols_of_inverse inverse bytes), rfl, rfl, rfl, rfl,
    afterSession_frame s bytes rest⟩

/-- Settles O26, as O25: in Normal order the groups are those of the bit string. -/
theorem normalSessionEmitsBitStringGroups : Obligations.NormalSessionEmitsBitStringGroups := by
  intro s bytes rest normal port
  exact ⟨_, runSteps_encodeSession port, congrArg _ (groupSymbols_of_normal normal bytes), rfl, rfl, rfl, rfl,
    afterSession_frame s bytes rest⟩

end Sys2Proof.Machine
end

section
/-! The decoder commands (43_decoder.md): their words, the outcome of each said once, and what one symbol does to the
accumulator in each order; then the six statements about single commands. -/

namespace Sys2Proof.Machine

/-! ## The words of the commands (30_encoding.md R84) -/

theorem decode_encode_decStart : decode (encode .decStart) = .instr .decStart := decode_of_match_row 9 rfl

theorem decode_encode_decFinish : decode (encode .decFinish) = .instr .decFinish := decode_of_match_row 11 rfl

/-- The byte command's immediate gives its byte back (R83). -/
theorem extractLsb'_byte_imm (d : Byte) : (d.setWidth 24).extractLsb' 0 8 = d := by
  rw [BitVec.extractLsb'_setWidth_of_le (by decide), BitVec.extractLsb'_eq_self]

theorem decode_encode_decSym (d : Byte) : decode (encode (.decSym d)) = .instr (.decSym d) := by
  obtain ⟨fields, -⟩ := Laws.EncodedFields.decSym d
  rw [decode_eq_fields, fields]
  simp [decodeFields, Instr.opc, Instr.sub, Instr.imm, Laws.EncodedFields.byte_imm_high, extractLsb'_byte_imm]

/-! ## What the commands do -/

theorem exec_decStart (s : State) : exec .decStart s = .next (s.withDec
    { state := .active, acc := 0, nbits := 0, icnt := 0, ocnt := 0, errOff := 0, errByte := 0 }) := rfl

section
variable {s : State} {d : Byte} {v : Value}

theorem exec_decSym_of_active (d : Byte) (h : s.dec.state = .active) :
    exec (.decSym d) s = .next (takeSymbol d s) := by
  change execDecSym d s = _
  rw [execDecSym, h]

theorem exec_decSym_of_failed (d : Byte) (h : s.dec.state = .failed) : exec (.decSym d) s = .next s := by
  change execDecSym d s = _
  rw [execDecSym, h]

theorem takeSymbol_of_value (h : revLookup s.alpha d = some v) : takeSymbol d s = takeValue v s := by
  rw [takeSymbol, h]

theorem takeSymbol_of_invalid (h : revLookup s.alpha d = none) :
    takeSymbol d s = raiseDecodeError s.dec.icnt d s := by
  rw [takeSymbol, h]

theorem decFinishWith_of_active (tail : NormalTail) (h : s.dec.state = .active) :
    decFinishWith tail s = .next (closeDecoder tail s) := by
  rw [decFinishWith, h]

theorem exec_decFinish_of_failed (h : s.dec.state = .failed) : exec .decFinish s = .next s := by
  change decFinishWith Config.normalTail s = _
  rw [decFinishWith, h]

theorem exec_decFinish_of_closed (h : s.dec.state = .idle ∨ s.dec.state = .done) :
    exec .decFinish s = .next (raiseCmdError .seqDec 0xA0000000 s) := by
  change decFinishWith Config.normalTail s = _
  obtain h | h := h <;> rw [decFinishWith, h] <;> rfl

end

theorem withDec_frame (s : State) (d : DecoderUnit) : keepsAllBut [.dec] s (s.withDec d) := by
  simp [keepsAllBut_iff]

theorem emitDec_withDec_frame (s : State) (bytes : List Byte) (d : DecoderUnit) :
    keepsAllBut [.dec, .decOut] s ((s.emitDec bytes).withDec d) := by
  simp [keepsAllBut_iff]

/-! ## The accumulator after one symbol (R176, R177) -/

section
variable {s : State} {acc : BitVec 12} {nbits : BitVec 4} {v : Value} {b : Byte}

theorem takeValue_of_emitted (h : accStep s.alpha.order s.dec.acc s.dec.nbits v = ⟨some b, acc, nbits⟩) :
    takeValue v s = (s.emitDec [b]).withDec
      { s.dec with acc := acc, nbits := nbits, icnt := s.dec.icnt + 1, ocnt := s.dec.ocnt + 1 } := by
  rw [takeValue, h]
  rfl

theorem takeValue_of_none (h : accStep s.alpha.order s.dec.acc s.dec.nbits v = ⟨none, acc, nbits⟩) :
    takeValue v s = s.withDec { s.dec with acc := acc, nbits := nbits, icnt := s.dec.icnt + 1 } := by
  rw [takeValue, h]
  exact congrArg (State.withDec · _) s.emitDec_nil

/-- With the symbol below them the pending bits are five more. -/
theorem append_value_toNat_lt {n : Nat} (v : Value) (h : acc.toNat < 2 ^ n) : (acc ++ v).toNat < 2 ^ (n + 5) := by
  have := Nat.mul_le_mul_right (2 ^ 5) (Nat.succ_le_of_lt h)
  rw [BitVec.toNat_append, ← Nat.shiftLeft_add_eq_or_of_lt v.isLt, Nat.shiftLeft_eq, pow_add]
  omega

theorem accNormal_of_ready (h : 8 ≤ nbits.toNat + 5) : accNormal acc nbits v =
    ⟨some (((acc ++ v) >>> (nbits.toNat + 5 - 8)).setWidth 8),
      BitVec.ofNat 12 ((acc ++ v).toNat % 2 ^ (nbits.toNat + 5 - 8)), BitVec.ofNat 4 (nbits.toNat + 5 - 8)⟩ := by
  rw [BitVec.toNat_append, ← BitVec.ofNat_toNat, BitVec.toNat_ushiftRight, BitVec.toNat_append]
  exact if_pos h

theorem accNormal_of_short (h : nbits.toNat + 5 < 8) : accNormal acc nbits v =
    ⟨none, BitVec.ofNat 12 (acc ++ v).toNat, BitVec.ofNat 4 (nbits.toNat + 5)⟩ := by
  rw [BitVec.toNat_append]
  exact if_neg (Nat.not_le.mpr h)

/-- A value put at bit `k`, cut to the accumulator's width. -/
theorem ofNat_value_shiftLeft (v : Value) (k : Nat) :
    BitVec.ofNat 12 (v.toNat <<< k) = v.setWidth 12 <<< k := by
  apply BitVec.eq_of_toNat_eq
  simp [Nat.shiftLeft_eq]

theorem accInverse_of_ready (h : 8 ≤ nbits.toNat) : accInverse acc nbits v =
    ⟨some (acc.extractLsb 7 0), acc >>> 8 ||| v.setWidth 12 <<< (nbits.toNat - 8),
      BitVec.ofNat 4 (nbits.toNat - 8 + 5)⟩ := by
  have rest : BitVec.ofNat 12 (acc.toNat >>> 8) = acc >>> 8 := by
    rw [← BitVec.toNat_ushiftRight, BitVec.ofNat_toNat, BitVec.setWidth_eq]
  rw [← ofNat_value_shiftLeft, ← rest, ← BitVec.ofNat_or]
  exact if_pos h

theorem accInverse_of_short (h : nbits.toNat < 8) : accInverse acc nbits v =
    ⟨none, acc ||| v.setWidth 12 <<< nbits.toNat, BitVec.ofNat 4 (nbits.toNat + 5)⟩ := by
  have kept : BitVec.ofNat 12 acc.toNat = acc := by rw [BitVec.ofNat_toNat, BitVec.setWidth_eq]
  rw [← ofNat_value_shiftLeft]
  nth_rw 2 [← kept]
  rw [← BitVec.ofNat_or]
  exact if_neg (Nat.not_le.mpr h)

end

/-- A count of pending bits that fits its register is held there as it is. -/
theorem ofNat_nbits_toNat {n : Nat} (h : n < 16) : (BitVec.ofNat 4 n).toNat = n :=
  (BitVec.toNat_ofNat n 4).trans (Nat.mod_eq_of_lt h)

/-! ## The tail at DEC_FINISH (R180 to R182) -/

section
variable {d : DecoderUnit} (tail : NormalTail)

theorem tailByte_of_pending (h : d.nbits ≠ 0) : tailByte tail .inverse d = some (d.acc.extractLsb 7 0) := by
  cases tail <;> exact if_neg h

theorem tailByte_of_empty (o : Order) (h : d.nbits = 0) : tailByte tail o d = none := by
  cases o with
  | normal =>
    cases tail with
    | discard => rfl
    | emitIfNonzero => exact if_pos (.inl h)
  | inverse => cases tail <;> exact if_pos h

end

/-! ## Commands of the other units -/

theorem commitStaged_keeps_decoder (s : State) :
    (commitStaged s).dec = s.dec ∧ (commitStaged s).decOut = s.decOut := by
  cases h : validate s.staging.bytes s.staging.len with
  | none => rw [commitStaged_of_ok h]; exact ⟨rfl, rfl⟩
  | some e => rw [commitStaged_of_error h]; exact ⟨rfl, rfl⟩

theorem installPreset_keeps_decoder (p : Preset) (w : Word) (s : State) :
    ∃ t, installPreset p w s = .next t ∧ t.dec = s.dec ∧ t.decOut = s.decOut := by
  by_cases h : sessionOpen s
  · exact ⟨_, installPreset_of_open p w h, raiseCmdError_dec .., raiseCmdError_decOut ..⟩
  · exact ⟨_, installPreset_of_closed p w h, rfl, rfl⟩

/-- A command that is not the decoder's leaves the decoder and its stream. -/
theorem exec_keeps_decoder {i : Instr} (h : isDecoderCommand i = false) (s : State) :
    ∃ t, exec i s = .next t ∧ t.dec = s.dec ∧ t.decOut = s.decOut := by
  have raised (c : CmdCause) (w : Word) :
      (raiseCmdError c w s).dec = s.dec ∧ (raiseCmdError c w s).decOut = s.decOut :=
    ⟨raiseCmdError_dec .., raiseCmdError_decOut ..⟩
  cases i with
  | alphaBegin o => exact ⟨_, rfl, rfl, rfl⟩
  | alphaByte d =>
    cases loading : s.staging.loading with
    | false => exact ⟨_, exec_alphaByte_of_not_loading d loading, raised ..⟩
    | true => exact ⟨_, exec_alphaByte_of_loading d loading, rfl, rfl⟩
  | alphaCommit =>
    cases loading : s.staging.loading with
    | false => exact ⟨_, if_pos (by simp [loading]), raised ..⟩
    | true =>
      by_cases opened : sessionOpen s
      · exact ⟨_, (if_neg (by simp [loading])).trans (if_pos ((busy_iff s).mpr opened)), raised ..⟩
      · exact ⟨_, exec_alphaCommit_of_loading loading opened, commitStaged_keeps_decoder s⟩
  | alphaPresetZbase32 => exact installPreset_keeps_decoder .zbase32 _ s
  | alphaPresetRfc4648 => exact installPreset_keeps_decoder .rfc4648 _ s
  | alphaPresetBech32 => exact installPreset_keeps_decoder .bech32 _ s
  | encStart => exact ⟨_, rfl, rfl, rfl⟩
  | encByte d =>
    by_cases active : s.enc.state = .active
    · exact ⟨_, exec_encByte_of_active d active, rfl, rfl⟩
    · exact ⟨_, if_neg active, raised ..⟩
  | encFinish =>
    by_cases active : s.enc.state = .active
    · exact ⟨_, exec_encFinish_of_active active, rfl, rfl⟩
    · exact ⟨_, exec_encFinish_of_not_active active, raised ..⟩
  | decStart => cases h
  | decSym d => cases h
  | decFinish => cases h
  | lenEnc n => exact ⟨_, rfl, rfl, rfl⟩
  | lenDec m => exact ⟨_, rfl, rfl, rfl⟩
  | clrErr => exact ⟨_, rfl, rfl, rfl⟩

/-! ## The statements -/

/-- Settles O27: the command writes the decoder's registers alone, whatever its state. -/
theorem decStartOpensSession : Obligations.DecStartOpensSession :=
  fun s => ⟨_, exec_decStart s, rfl, rfl, rfl, rfl, rfl, rfl, rfl, withDec_frame s _⟩

/-- Settles O28: the invariant's 7 pending bits and the symbol's 5 make 8 to 12 or fewer than 8, and in the second case
the accumulator with the symbol below it still fits its register. -/
theorem decSymNormalStep : Obligations.DecSymNormalStep := by
  intro d v s active normal inv entry
  have most : s.dec.nbits.toNat ≤ 7 := inv.normal active normal
  have next : exec (.decSym d) s = .next (takeValue v s) := by
    rw [exec_decSym_of_active d active, takeSymbol_of_value (revLookup_value entry)]
  obtain short | ready := lt_or_ge (s.dec.nbits.toNat + 5) 8
  · have step := accNormal_of_short (acc := s.dec.acc) (v := v) short
    have fits : (s.dec.acc ++ v).toNat < 2 ^ 12 :=
      (append_value_toNat_lt v inv.width).trans_le (Nat.pow_le_pow_right (by decide) (by omega))
    rw [takeValue_of_none (by rw [normal]; exact step)] at next
    have held := (BitVec.toNat_ofNat ..).trans (Nat.mod_eq_of_lt fits)
    exact ⟨_, next, fun ready => absurd ready (by omega), fun _ => ⟨ofNat_nbits_toNat (by omega), rfl, held, rfl⟩,
      BitVec.toNat_add .., active, rfl, rfl, keepsAllBut_mono (withDec_frame s _) (by simp)⟩
  · have step := accNormal_of_ready (acc := s.dec.acc) (v := v) ready
    have fits : (s.dec.acc ++ v).toNat % 2 ^ (s.dec.nbits.toNat + 5 - 8) < 2 ^ 12 :=
      (Nat.mod_lt _ (Nat.two_pow_pos _)).trans_le (Nat.pow_le_pow_right (by decide) (by omega))
    rw [takeValue_of_emitted (by rw [normal]; exact step)] at next
    have held := (BitVec.toNat_ofNat ..).trans (Nat.mod_eq_of_lt fits)
    exact ⟨_, next, fun _ => ⟨ofNat_nbits_toNat (by omega), rfl, held, BitVec.toNat_add ..⟩,
      fun short => absurd short (by omega), BitVec.toNat_add .., active, rfl, rfl, emitDec_withDec_frame s _ _⟩

/-- Settles O29: of the 12 pending bits the invariant allows at most 7 are left when 8 are emitted, so the new count fits its
register. -/
theorem decSymInverseStep : Obligations.DecSymInverseStep := by
  intro d v s active inverse inv entry
  have most := inv.most
  have next : exec (.decSym d) s = .next (takeValue v s) := by
    rw [exec_decSym_of_active d active, takeSymbol_of_value (revLookup_value entry)]
  obtain short | ready := lt_or_ge s.dec.nbits.toNat 8
  · have step := accInverse_of_short (acc := s.dec.acc) (v := v) short
    have count := ofNat_nbits_toNat (n := s.dec.nbits.toNat + 5) (by omega)
    rw [takeValue_of_none (by rw [inverse]; exact step)] at next
    exact ⟨_, next, fun ready => absurd ready (by omega), fun _ => ⟨count, rfl, rfl, rfl⟩, BitVec.toNat_add ..,
      le_of_le_of_eq (by omega) count.symm, count.trans_le (by omega), active, rfl, rfl,
      keepsAllBut_mono (withDec_frame s _) (by simp)⟩
  · have step := accInverse_of_ready (acc := s.dec.acc) (v := v) ready
    have count := ofNat_nbits_toNat (n := s.dec.nbits.toNat - 8 + 5) (by omega)
    rw [takeValue_of_emitted (by rw [inverse]; exact step)] at next
    exact ⟨_, next, fun _ => ⟨count, rfl, rfl, BitVec.toNat_add ..⟩, fun short => absurd short (by omega),
      BitVec.toNat_add .., le_of_le_of_eq (by omega) count.symm, count.trans_le (by omega), active, rfl, rfl,
      emitDec_withDec_frame s _ _⟩

/-- Settles O30: the lookup comes before anything else, and raising the error writes the state and the record alone. -/
theorem decSymInvalidFails : Obligations.DecSymInvalidFails := by
  intro d s active entry
  have next : exec (.decSym d) s = .next (raiseDecodeError s.dec.icnt d s) := by
    rw [exec_decSym_of_active d active, takeSymbol_of_invalid (revLookup_invalid entry)]
  exact ⟨_, next, rfl, rfl, rfl, rfl, rfl, rfl, rfl, withDec_frame s _⟩

/-- Settles O31: the other two decoder commands hold the whole state, and the commands of the other units the decoder. -/
theorem failedIsTerminal : Obligations.FailedIsTerminal := by
  intro s failed
  have symbol (d : Byte) := exec_decSym_of_failed d failed
  have finish := exec_decFinish_of_failed failed
  refine ⟨symbol, finish, fun i notStart => ?others, _, exec_decStart s, rfl⟩
  cases unit : isDecoderCommand i with
  | false => exact exec_keeps_decoder unit s
  | true =>
    cases i with
    | decStart => exact absurd rfl notStart
    | decSym d => exact ⟨s, symbol d, rfl, rfl⟩
    | decFinish => exact ⟨s, finish, rfl, rfl⟩
    | _ => cases unit

/-- Settles O32: by the decoder's state; in an open session all but the tail is written whatever is pending, and the tail
is a byte exactly when bits are pending in Inverse order. -/
theorem decFinishClosesSession : Obligations.DecFinishClosesSession := by
  refine fun s => ⟨exec_decFinish_of_failed, fun closed => ?refused, fun active => ?closes⟩
  case refused =>
    exact ⟨_, exec_decFinish_of_closed closed, raiseCmdError_cmdErr .., raiseCmdError_frame _ _ s⟩
  case closes =>
    refine ⟨_, decFinishWith_of_active .discard active, fun inverse pending => ?emits, fun quiet => ?nothing,
      rfl, rfl, rfl, rfl, rfl, rfl, emitDec_withDec_frame s _ _⟩
    case emits =>
      have tail := tailByte_of_pending .discard pending
      simp [closeDecoder, inverse, tail, countEmitted]
    case nothing =>
      have tail : tailByte .discard s.alpha.order s.dec = none := by
        obtain normal | empty := quiet
        · rw [normal]; rfl
        · exact tailByte_of_empty .discard _ empty
      simp [closeDecoder, tail, countEmitted]

end Sys2Proof.Machine
end

section
/-! The decoder's accumulator against a stream of bits (43_decoder.md R176, R177). As in the encoder both orders read one
stream and differ only in where a bit of a number stands in it. Where the symbols' values are the 5-bit groups of a stream
(`groupAt`), the bytes emitted after m symbols are those of the stream and DEC_ACC is the number its remaining bits make:
`accStep_of_settles` and `accStep_of_waits` say that one symbol keeps this, with and without an emission. -/

namespace Sys2Proof.Machine

/-! ## Numbers read from a stream of bits -/

/-- The number made of the `len` bits of a stream from `start` on, each at its place in the order. -/
def streamNumber (o : Order) (bit : Nat → Bool) (start len : Nat) : Nat :=
  Nat.ofBits fun k : Fin len => bit (start + bitPlace o len k)

theorem streamNumber_lt (o : Order) (bit : Nat → Bool) (start len : Nat) : streamNumber o bit start len < 2 ^ len :=
  Nat.ofBits_lt_two_pow _

theorem streamNumber_testBit (o : Order) (bit : Nat → Bool) (start len k : Nat) :
    (streamNumber o bit start len).testBit k = (decide (k < len) && bit (start + bitPlace o len k)) := by
  obtain inside | outside := lt_or_ge k len
  · rw [streamNumber, Nat.testBit_ofBits_lt _ _ inside, decide_eq_true inside, Bool.true_and]
  · rw [streamNumber, Nat.testBit_ofBits_ge _ _ outside, decide_eq_false (Nat.not_lt.mpr outside), Bool.false_and]

section
variable (bit : Nat → Bool) (start a b : Nat)

/-- In Normal order the earlier bits are the higher ones. -/
theorem streamNumber_normal_add : streamNumber .normal bit start (a + b)
    = streamNumber .normal bit start a <<< b ||| streamNumber .normal bit (start + a) b := by
  apply Nat.eq_of_testBit_eq
  intro k
  simp only [Nat.testBit_or, Nat.testBit_shiftLeft, streamNumber_testBit, bitPlace_normal]
  obtain low | ⟨k, rfl⟩ := (lt_or_ge k b).imp_right Nat.exists_eq_add_of_le
  · have place : start + (a + b - 1 - k) = start + a + (b - 1 - k) := by omega
    simp [low, place, show k < a + b by omega, show ¬ b ≤ k by omega]
  · have place : a + b - 1 - (b + k) = a - 1 - k := by omega
    simp [place, show b + k < a + b ↔ k < a by omega]

theorem streamNumber_normal_shiftRight :
    streamNumber .normal bit start (a + b) >>> b = streamNumber .normal bit start a := by
  have low := streamNumber_lt .normal bit (start + a) b
  rw [streamNumber_normal_add, Nat.shiftRight_or_distrib, Nat.shiftLeft_shiftRight, Nat.shiftRight_eq_zero _ _ low,
    Nat.or_zero]

theorem streamNumber_normal_mod :
    streamNumber .normal bit start (a + b) % 2 ^ b = streamNumber .normal bit (start + a) b := by
  have low := streamNumber_lt .normal bit (start + a) b
  rw [streamNumber_normal_add, Nat.or_mod_two_pow, Nat.mod_eq_of_lt low, Nat.shiftLeft_eq, Nat.mul_mod_left, Nat.zero_or]

/-- In Inverse order the earlier bits are the lower ones. -/
theorem streamNumber_inverse_add : streamNumber .inverse bit start (a + b)
    = streamNumber .inverse bit start a ||| streamNumber .inverse bit (start + a) b <<< a := by
  apply Nat.eq_of_testBit_eq
  intro k
  simp only [Nat.testBit_or, Nat.testBit_shiftLeft, streamNumber_testBit, bitPlace_inverse]
  obtain low | ⟨k, rfl⟩ := (lt_or_ge k a).imp_right Nat.exists_eq_add_of_le
  · simp [low, show k < a + b by omega, show ¬ a ≤ k by omega]
  · simp [Nat.add_assoc]

theorem streamNumber_inverse_shiftRight :
    streamNumber .inverse bit start (a + b) >>> a = streamNumber .inverse bit (start + a) b := by
  have low := streamNumber_lt .inverse bit start a
  rw [streamNumber_inverse_add, Nat.shiftRight_or_distrib, Nat.shiftLeft_shiftRight, Nat.shiftRight_eq_zero _ _ low,
    Nat.zero_or]

theorem streamNumber_inverse_mod :
    streamNumber .inverse bit start (a + b) % 2 ^ a = streamNumber .inverse bit start a := by
  have low := streamNumber_lt .inverse bit start a
  rw [streamNumber_inverse_add, Nat.or_mod_two_pow, Nat.mod_eq_of_lt low, Nat.shiftLeft_eq, Nat.mul_mod_left,
    Nat.or_zero]

end

/-! ## The counts after m symbols -/

/-- The bytes emitted by the first m symbols: in Normal order all that are complete, in Inverse order those that were
complete before the last symbol (R178). -/
def settledBytes : Order → Nat → Nat
  | .normal, m => 5 * m / 8
  | .inverse, m => 5 * (m - 1) / 8

/-- The bits pending after m symbols, DEC_NBITS. -/
def pendingBits (o : Order) (m : Nat) : Nat := 5 * m - 8 * settledBytes o m

theorem settledBytes_zero (o : Order) : settledBytes o 0 = 0 := by
  cases o <;> rfl

theorem settledBytes_add_pendingBits (o : Order) (m : Nat) : 8 * settledBytes o m + pendingBits o m = 5 * m := by
  cases o <;> rw [pendingBits, settledBytes] <;> omega

theorem pendingBits_le (o : Order) (m : Nat) : pendingBits o m ≤ 12 := by
  cases o <;> rw [pendingBits, settledBytes] <;> omega

/-- A symbol adds 5 bits, and completes a byte or not. -/
theorem settledBytes_succ_cases (o : Order) (m : Nat) :
    (settledBytes o (m + 1) = settledBytes o m + 1 ∧ pendingBits o m + 5 = 8 + pendingBits o (m + 1))
    ∨ (settledBytes o (m + 1) = settledBytes o m ∧ pendingBits o (m + 1) = pendingBits o m + 5) := by
  cases o <;> simp only [pendingBits, settledBytes] <;> omega

/-- In Normal order the byte comes with the symbol that completes it. -/
theorem settles_normal_iff (m : Nat) :
    settledBytes .normal (m + 1) = settledBytes .normal m + 1 ↔ 8 ≤ pendingBits .normal m + 5 := by
  simp only [pendingBits, settledBytes]
  omega

/-- In Inverse order the byte waits for the symbol after the one that completes it. -/
theorem settles_inverse_iff (m : Nat) :
    settledBytes .inverse (m + 1) = settledBytes .inverse m + 1 ↔ 8 ≤ pendingBits .inverse m := by
  simp only [pendingBits, settledBytes]
  omega

/-- At the end of an Inverse-order session pending bits make one more byte (R182); in Normal order they make none (R181)
and the count is that of the settled bytes. -/
theorem decodedCount_inverse_eq_settled (m : Nat) :
    decodedCount .inverse m = settledBytes .inverse m + (if pendingBits .inverse m = 0 then 0 else 1) := by
  obtain rfl | pos := Nat.eq_zero_or_pos m
  · rfl
  · have pending : pendingBits .inverse m ≠ 0 := by rw [pendingBits, settledBytes]; omega
    rw [if_neg pending, decodedCount, settledBytes]
    omega

/-! ## The accumulator and the stream -/

/-- The value of symbol j when the symbols carry the stream. -/
def groupAt (o : Order) (bit : Nat → Bool) (j : Nat) : Value := BitVec.ofNat 5 (streamNumber o bit (5 * j) 5)

/-- Byte j of the stream. -/
def byteAt (o : Order) (bit : Nat → Bool) (j : Nat) : Byte := BitVec.ofNat 8 (streamNumber o bit (8 * j) 8)

/-- DEC_ACC after m symbols: the bits of the stream that are in no emitted byte. -/
def accAfter (o : Order) (bit : Nat → Bool) (m : Nat) : BitVec 12 :=
  BitVec.ofNat 12 (streamNumber o bit (8 * settledBytes o m) (pendingBits o m))

/-- DEC_NBITS after m symbols. -/
def nbitsAfter (o : Order) (m : Nat) : BitVec 4 := BitVec.ofNat 4 (pendingBits o m)

section
variable (o : Order) (bit : Nat → Bool) (m : Nat)

theorem groupAt_toNat : (groupAt o bit m).toNat = streamNumber o bit (5 * m) 5 :=
  (BitVec.toNat_ofNat ..).trans (Nat.mod_eq_of_lt (streamNumber_lt ..))

theorem nbitsAfter_toNat : (nbitsAfter o m).toNat = pendingBits o m :=
  ofNat_nbits_toNat (Nat.lt_of_le_of_lt (pendingBits_le o m) (by decide))

theorem accAfter_toNat : (accAfter o bit m).toNat = streamNumber o bit (8 * settledBytes o m) (pendingBits o m) :=
  (BitVec.toNat_ofNat ..).trans (Nat.mod_eq_of_lt ((streamNumber_lt ..).trans_le
    (Nat.pow_le_pow_right (by decide) (pendingBits_le o m))))

/-- In Normal order the accumulator with the next symbol below it is the stream up to that symbol's end. -/
theorem accAfter_append_groupAt : (accAfter .normal bit m ++ groupAt .normal bit m).toNat
    = streamNumber .normal bit (8 * settledBytes .normal m) (pendingBits .normal m + 5) := by
  rw [BitVec.toNat_append, accAfter_toNat, groupAt_toNat, streamNumber_normal_add, settledBytes_add_pendingBits]

/-- In Inverse order a symbol stands above the bits of the stream before it. -/
theorem ofNat_streamNumber_or_groupAt {start len : Nat} (h : start + len = 5 * m) :
    BitVec.ofNat 12 (streamNumber .inverse bit start len) ||| (groupAt .inverse bit m).setWidth 12 <<< len
      = BitVec.ofNat 12 (streamNumber .inverse bit start (len + 5)) := by
  rw [streamNumber_inverse_add, BitVec.ofNat_or, h, ← groupAt_toNat, ofNat_value_shiftLeft]

/-- A symbol that completes a byte emits the next byte of the stream. -/
theorem accStep_of_settles (settles : settledBytes o (m + 1) = settledBytes o m + 1)
    (bits : pendingBits o m + 5 = 8 + pendingBits o (m + 1)) :
    accStep o (accAfter o bit m) (nbitsAfter o m) (groupAt o bit m)
      = ⟨some (byteAt o bit (settledBytes o m)), accAfter o bit (m + 1), nbitsAfter o (m + 1)⟩ := by
  cases o with
  | normal =>
    have ready := (settles_normal_iff m).mp settles
    have emitted : ((accAfter .normal bit m ++ groupAt .normal bit m) >>> pendingBits .normal (m + 1)).setWidth 8
        = byteAt .normal bit (settledBytes .normal m) := by
      rw [← BitVec.ofNat_toNat, BitVec.toNat_ushiftRight, accAfter_append_groupAt, bits,
        streamNumber_normal_shiftRight]
      rfl
    have kept : BitVec.ofNat 12
          ((accAfter .normal bit m ++ groupAt .normal bit m).toNat % 2 ^ pendingBits .normal (m + 1))
        = accAfter .normal bit (m + 1) := by
      rw [accAfter_append_groupAt, bits, streamNumber_normal_mod, accAfter, settles, Nat.mul_add_one]
    rw [accStep, accNormal_of_ready (by rwa [nbitsAfter_toNat]), nbitsAfter_toNat, bits, Nat.add_sub_cancel_left,
      emitted, kept, nbitsAfter]
  | inverse =>
    have ready := (settles_inverse_iff m).mp settles
    obtain ⟨q, pending⟩ : ∃ q, pendingBits .inverse m = 8 + q := Nat.exists_eq_add_of_le ready
    have taken := settledBytes_add_pendingBits .inverse m
    have emitted : (accAfter .inverse bit m).extractLsb 7 0 = byteAt .inverse bit (settledBytes .inverse m) := by
      apply BitVec.eq_of_toNat_eq
      rw [BitVec.extractLsb_toNat, accAfter_toNat, pending, Nat.shiftRight_zero, byteAt, BitVec.toNat_ofNat,
        streamNumber_inverse_mod, Nat.mod_eq_of_lt (streamNumber_lt ..)]
    have left : accAfter .inverse bit m >>> 8
        = BitVec.ofNat 12 (streamNumber .inverse bit (8 * settledBytes .inverse m + 8) q) := by
      rw [← streamNumber_inverse_shiftRight, ← pending, ← accAfter_toNat, ← BitVec.toNat_ushiftRight,
        BitVec.ofNat_toNat, BitVec.setWidth_eq]
    rw [accStep, accInverse_of_ready (by rwa [nbitsAfter_toNat]), nbitsAfter_toNat, pending, Nat.add_sub_cancel_left,
      emitted, left, ofNat_streamNumber_or_groupAt bit m (by omega), accAfter, nbitsAfter, settles, Nat.mul_add_one,
      show pendingBits .inverse (m + 1) = q + 5 by omega]

theorem accStep_of_waits (waits : settledBytes o (m + 1) = settledBytes o m)
    (bits : pendingBits o (m + 1) = pendingBits o m + 5) :
    accStep o (accAfter o bit m) (nbitsAfter o m) (groupAt o bit m)
      = ⟨none, accAfter o bit (m + 1), nbitsAfter o (m + 1)⟩ := by
  cases o with
  | normal =>
    have short := mt (settles_normal_iff m).mpr (by omega)
    rw [accStep, accNormal_of_short (by rw [nbitsAfter_toNat]; omega), nbitsAfter_toNat, accAfter_append_groupAt,
      accAfter, nbitsAfter, waits, bits]
  | inverse =>
    have short := mt (settles_inverse_iff m).mpr (by omega)
    rw [accStep, accInverse_of_short (by rw [nbitsAfter_toNat]; omega), nbitsAfter_toNat, accAfter,
      ofNat_streamNumber_or_groupAt bit m (settledBytes_add_pendingBits .inverse m), accAfter, nbitsAfter, waits, bits]

end

end Sys2Proof.Machine
end

section
/-! Decoder sessions (43_decoder.md R183, R185, R186). The stream of bits is fixed for the whole session, so the induction
over the symbols is made once (`runSteps_decSyms`) and serves the stream of any symbols' values (`valueBit`) and that of
an encoder's input (`streamBit`) alike; then the three statements about sessions. -/

namespace Sys2Proof.Machine

/-! ## The states of a session -/

/-- The first `count` bytes of the stream. -/
def streamBytes (o : Order) (bit : Nat → Bool) (count : Nat) : List Byte := (List.range count).map (byteAt o bit)

/-- The decoder in a session that has taken m symbols. -/
def openDecoder (o : Order) (bit : Nat → Bool) (m : Nat) : DecoderUnit where
  state := .active
  acc := accAfter o bit m
  nbits := nbitsAfter o m
  icnt := BitVec.ofNat 32 m
  ocnt := BitVec.ofNat 32 (settledBytes o m)
  errOff := 0
  errByte := 0

/-- The decoder after a session of m symbols. -/
def doneDecoder (o : Order) (m : Nat) : DecoderUnit where
  state := .done
  acc := 0
  nbits := 0
  icnt := BitVec.ofNat 32 m
  ocnt := BitVec.ofNat 32 (decodedCount o m)
  errOff := 0
  errByte := 0

/-- `s` in a decoder session that has taken m symbols. -/
def midDecode (s : State) (bit : Nat → Bool) (m : Nat) (port : List PortInput) : State :=
  ((s.emitDec (streamBytes s.alpha.order bit (settledBytes s.alpha.order m))).withDec
    (openDecoder s.alpha.order bit m)).withPort port

/-- `s` after a decoder session of m symbols. -/
def afterDecode (s : State) (bit : Nat → Bool) (m : Nat) (port : List PortInput) : State :=
  ((s.emitDec (streamBytes s.alpha.order bit (decodedCount s.alpha.order m))).withDec
    (doneDecoder s.alpha.order m)).withPort port

/-- The symbols are valid and their values are the groups of the stream. -/
def Carries (a : AlphabetUnit) (bit : Nat → Bool) (symbols : List Byte) : Prop :=
  ∀ j (h : j < symbols.length), revLookup a symbols[j] = some (groupAt a.order bit j)

theorem streamBytes_succ (o : Order) (bit : Nat → Bool) (count : Nat) :
    streamBytes o bit (count + 1) = streamBytes o bit count ++ [byteAt o bit count] := by
  rw [streamBytes, List.range_succ, List.map_append]
  rfl

@[simp] theorem streamBytes_length (o : Order) (bit : Nat → Bool) (count : Nat) :
    (streamBytes o bit count).length = count := by
  rw [streamBytes, List.length_map, List.length_range]

theorem openDecoder_zero (o : Order) (bit : Nat → Bool) : openDecoder o bit 0 =
    { state := .active, acc := 0, nbits := 0, icnt := 0, ocnt := 0, errOff := 0, errByte := 0 } := by
  cases o <;> rfl

theorem emitDec_emitDec (s : State) (xs ys : List Byte) : (s.emitDec xs).emitDec ys = s.emitDec (xs ++ ys) := by
  simp [State.emitDec]

section
variable (s : State) (bit : Nat → Bool) (m : Nat) (port : List PortInput)

theorem takeValue_midDecode : takeValue (groupAt s.alpha.order bit m) (midDecode s bit m port)
    = midDecode s bit (m + 1) port := by
  obtain ⟨settles, bits⟩ | ⟨waits, bits⟩ := settledBytes_succ_cases s.alpha.order m
  · rw [takeValue_of_emitted (accStep_of_settles s.alpha.order bit m settles bits), midDecode, midDecode, settles,
      streamBytes_succ, ← emitDec_emitDec, openDecoder, openDecoder, settles, BitVec.ofNat_add, BitVec.ofNat_add]
    rfl
  · rw [takeValue_of_none (accStep_of_waits s.alpha.order bit m waits bits), midDecode, midDecode, openDecoder,
      openDecoder, waits, BitVec.ofNat_add]
    rfl

/-- The low 8 pending bits are the next byte of the stream where the stream ends with them. -/
theorem accAfter_inverse_extractLsb (ends : ∀ i, 5 * m ≤ i → bit i = false) :
    (accAfter .inverse bit m).extractLsb 7 0 = byteAt .inverse bit (settledBytes .inverse m) := by
  have taken := settledBytes_add_pendingBits .inverse m
  ext k hk
  rw [byteAt, ofNat_getElem hk, streamNumber_testBit, decide_eq_true hk, Bool.true_and, BitVec.extractLsb,
    BitVec.getElem_extractLsb', Nat.zero_add, ← BitVec.testBit_toNat, accAfter_toNat, streamNumber_testBit,
    bitPlace_inverse, bitPlace_inverse]
  obtain pending | past := lt_or_ge k (pendingBits .inverse m)
  · rw [decide_eq_true pending, Bool.true_and]
  · rw [decide_eq_false (Nat.not_lt.mpr past), Bool.false_and, ends _ (by omega)]

/-- The tail makes one more byte of the stream exactly where the count of the whole session has one more. -/
theorem tailByte_openDecoder (o : Order) (tail : NormalTail) (ends : ∀ i, 5 * m ≤ i → bit i = false)
    (quiet : o = .normal → tail = .emitIfNonzero → accAfter o bit m = 0) :
    (decodedCount o m = settledBytes o m ∧ tailByte tail o (openDecoder o bit m) = none)
    ∨ (decodedCount o m = settledBytes o m + 1
      ∧ tailByte tail o (openDecoder o bit m) = some (byteAt o bit (settledBytes o m))) := by
  cases o with
  | normal =>
    refine .inl ⟨rfl, ?_⟩
    cases tail with
    | discard => rfl
    | emitIfNonzero => exact if_pos (.inr (quiet rfl rfl))
  | inverse =>
    rw [decodedCount_inverse_eq_settled, ← accAfter_inverse_extractLsb bit m ends]
    obtain empty | pending := eq_or_ne (pendingBits .inverse m) 0
    · exact .inl ⟨by rw [if_pos empty, Nat.add_zero], tailByte_of_empty tail _ (congrArg (BitVec.ofNat 4) empty)⟩
    · have held : nbitsAfter .inverse m ≠ 0 :=
        fun zero => pending (nbitsAfter_toNat .inverse m ▸ congrArg BitVec.toNat zero)
      exact .inr ⟨by rw [if_neg pending], tailByte_of_pending tail held⟩

theorem closeDecoder_midDecode (tail : NormalTail) (ends : ∀ i, 5 * m ≤ i → bit i = false)
    (quiet : s.alpha.order = .normal → tail = .emitIfNonzero → accAfter s.alpha.order bit m = 0) :
    closeDecoder tail (midDecode s bit m port) = afterDecode s bit m port := by
  obtain ⟨count, byte⟩ | ⟨count, byte⟩ := tailByte_openDecoder bit m s.alpha.order tail ends quiet
  · have none : tailByte tail (midDecode s bit m port).alpha.order (midDecode s bit m port).dec = none := byte
    rw [closeDecoder, none, afterDecode, doneDecoder, count, Option.toList_none, State.emitDec_nil]
    rfl
  · have one : tailByte tail (midDecode s bit m port).alpha.order (midDecode s bit m port).dec
      = some (byteAt s.alpha.order bit (settledBytes s.alpha.order m)) := byte
    rw [closeDecoder, one, afterDecode, doneDecoder, count, streamBytes_succ, ← emitDec_emitDec, BitVec.ofNat_add]
    rfl

theorem decFinishWith_midDecode (tail : NormalTail) (ends : ∀ i, 5 * m ≤ i → bit i = false)
    (quiet : s.alpha.order = .normal → tail = .emitIfNonzero → accAfter s.alpha.order bit m = 0) :
    decFinishWith tail (midDecode s bit m port) = .next (afterDecode s bit m port) := by
  rw [decFinishWith_of_active tail rfl, closeDecoder_midDecode s bit m port tail ends quiet]

theorem afterDecode_frame : keepsAllBut [.dec, .decOut, .port] s (afterDecode s bit m port) := by
  simp [keepsAllBut_iff, afterDecode]

end

/-! ## The steps of a session -/

section
variable {s : State} {bit : Nat → Bool} {symbols : List Byte} {rest : List PortInput}

theorem step_decStart (bit : Nat → Bool) (h : s.port = sends .decStart :: rest) :
    step s = .next (midDecode s bit 0 rest) := by
  rw [step_sends h decode_encode_decStart, exec_decStart, midDecode, openDecoder_zero, settledBytes_zero,
    streamBytes, List.range_zero, List.map_nil, State.emitDec_nil]
  rfl

theorem step_decSym {m : Nat} {d : Byte} (h : revLookup s.alpha d = some (groupAt s.alpha.order bit m)) :
    step (midDecode s bit m (sends (.decSym d) :: rest)) = .next (midDecode s bit (m + 1) rest) := by
  rw [step_sends rfl (decode_encode_decSym d)]
  have taken := (takeSymbol_of_value (s := midDecode s bit m rest) h).trans (takeValue_midDecode s bit m rest)
  exact (exec_decSym_of_active d rfl).trans (congrArg _ taken)

theorem runSteps_decSyms (before symbols : List Byte) (h : Carries s.alpha bit (before ++ symbols)) :
    runSteps symbols.length (midDecode s bit before.length ((symbols.map fun d => sends (.decSym d)) ++ rest))
      = .next (midDecode s bit (before ++ symbols).length rest) := by
  induction symbols generalizing before with
  | nil => rw [List.append_nil]; rfl
  | cons d symbols ih =>
    have head : revLookup s.alpha d = some (groupAt s.alpha.order bit before.length) := by
      simpa using h before.length (by simp)
    rw [List.append_cons] at h ⊢
    have later := ih (before ++ [d]) h
    rw [List.length_append, List.length_singleton] at later
    rw [List.map_cons, List.cons_append, List.length_cons, runSteps_succ_of_step (step_decSym head), later]

/-- Before its last command a session has taken its symbols, from any state. -/
theorem runSteps_decodeSymbols (valid : Carries s.alpha bit symbols) (h : s.port = decodeSymbols symbols ++ rest) :
    runSteps (symbols.length + 1) s = .next (midDecode s bit symbols.length rest) := by
  rw [runSteps_succ_of_step (step_decStart bit h)]
  exact runSteps_decSyms [] symbols valid

theorem step_decFinish {m : Nat} (ends : ∀ i, 5 * m ≤ i → bit i = false) :
    step (midDecode s bit m (sends .decFinish :: rest)) = .next (afterDecode s bit m rest) := by
  rw [step_sends rfl decode_encode_decFinish]
  exact decFinishWith_midDecode s bit m rest .discard ends nofun

/-- A session of valid symbols ends with the bytes of its stream, from any state. -/
theorem runSteps_decodeSession (valid : Carries s.alpha bit symbols)
    (ends : ∀ i, 5 * symbols.length ≤ i → bit i = false) (h : s.port = decodeSession symbols ++ rest) :
    runSteps (symbols.length + 2) s = .next (afterDecode s bit symbols.length rest) := by
  rw [decodeSession, List.append_assoc, List.singleton_append] at h
  exact (runSteps_add (m := 1) (runSteps_decodeSymbols valid h)).trans (runSteps_succ_of_step (step_decFinish ends))

end

/-! ## The bits of any symbols -/

/-- The value of a symbol. -/
def symbolValue (a : AlphabetUnit) (d : Byte) : Value := (a.rev.get d.toFin).setWidth 5

/-- The stream of the values' bits: bit i in the order they are taken, 0 past their end. -/
def valueBit (o : Order) (values : List Value) (i : Nat) : Bool :=
  (values.getD (i / 5) 0).getLsbD (bitPlace o 5 (i % 5))

theorem revLookup_symbolValue {a : AlphabetUnit} {d : Byte} (h : isSymbol a d) :
    revLookup a d = some (symbolValue a d) := by
  obtain ⟨v, entry⟩ := h
  have value : symbolValue a d = v := by
    rw [symbolValue, entry, BitVec.setWidth_setWidth_of_le v (by decide), BitVec.setWidth_eq]
  rw [revLookup_value entry, value]

theorem groupAt_valueBit (o : Order) (values : List Value) {j : Nat} (h : j < values.length) :
    groupAt o (valueBit o values) j = values[j] := by
  ext k hk
  have place := bitPlace_lt o hk
  rw [groupAt, ofNat_getElem hk, streamNumber_testBit, decide_eq_true hk, Bool.true_and, valueBit,
    show (5 * j + bitPlace o 5 k) / 5 = j by omega, show (5 * j + bitPlace o 5 k) % 5 = bitPlace o 5 k by omega,
    bitPlace_bitPlace o hk, List.getD_eq_getElem _ _ h, BitVec.getLsbD_eq_getElem hk]

theorem valueBit_past (o : Order) (values : List Value) {i : Nat} (h : 5 * values.length ≤ i) :
    valueBit o values i = false := by
  rw [valueBit, List.getD_eq_default _ _ (by omega)]
  exact BitVec.getLsbD_zero

theorem carries_valueBit {a : AlphabetUnit} {symbols : List Byte} (valid : ∀ d ∈ symbols, isSymbol a d) :
    Carries a (valueBit a.order (symbols.map (symbolValue a))) symbols := by
  intro j hj
  rw [revLookup_symbolValue (valid _ (List.getElem_mem hj)), groupAt_valueBit _ _ (by simpa using hj), List.getElem_map]

/-! ## A failed session -/

section
variable {s : State} {rest : List PortInput}

theorem step_decSym_of_failed {d : Byte} (failed : s.dec.state = .failed) (h : s.port = sends (.decSym d) :: rest) :
    step s = .next (s.withPort rest) := by
  rw [step_sends h (decode_encode_decSym d)]
  exact exec_decSym_of_failed d failed

theorem step_decSym_of_invalid {bit : Nat → Bool} {m : Nat} {d : Byte} (h : revLookup s.alpha d = none) :
    step (midDecode s bit m (sends (.decSym d) :: rest))
      = .next (raiseDecodeError (BitVec.ofNat 32 m) d (midDecode s bit m rest)) := by
  rw [step_sends rfl (decode_encode_decSym d)]
  exact (exec_decSym_of_active d rfl).trans (congrArg _ (takeSymbol_of_invalid (s := midDecode s bit m rest) h))

/-- A failed session takes the rest of its commands and holds everything else. -/
theorem runSteps_of_failed (symbols : List Byte) (failed : s.dec.state = .failed)
    (h : s.port = (symbols.map fun d => sends (.decSym d)) ++ sends .decFinish :: rest) :
    runSteps (symbols.length + 1) s = .next (s.withPort rest) := by
  induction symbols generalizing s with
  | nil =>
    refine runSteps_succ_of_step (k := 0) ?_
    rw [step_sends h decode_encode_decFinish]
    exact exec_decFinish_of_failed failed
  | cons d symbols ih =>
    rw [List.length_cons, runSteps_succ_of_step (step_decSym_of_failed failed h)]
    exact ih failed rfl

end

/-! ## The bits of an encoder's input -/

theorem revLookup_fwd {a : AlphabetUnit} (tables : InverseTables a) (v : Value) :
    a.rev.get (a.fwd.get v.toFin).toFin = v.setWidth 8 :=
  (tables.symbol v.toFin).trans (BitVec.ofNat_toNat 8 v)

theorem isSymbol_fwd {a : AlphabetUnit} (tables : InverseTables a) (i : Fin 32) : isSymbol a (a.fwd.get i) :=
  ⟨BitVec.ofFin i, revLookup_fwd tables (BitVec.ofFin i)⟩

theorem groupAt_streamBit (o : Order) (bytes : List Byte) (j : Nat) :
    groupAt o (streamBit o bytes) j = inputGroup o bytes j :=
  (inputGroup_eq_ofNat o bytes j).symm

theorem streamBit_getElem (o : Order) (bytes : List Byte) {j i : Nat} (h : j < bytes.length) (hi : i < 8) :
    streamBit o bytes (8 * j + i) = bytes[j].getLsbD (bitPlace o 8 i) := by
  induction bytes generalizing j with
  | nil => cases h
  | cons b rest ih =>
    cases j with
    | zero => rw [Nat.mul_zero, Nat.zero_add, streamBit_cons_of_lt o b rest hi]; rfl
    | succ j =>
      rw [show 8 * (j + 1) + i = 8 + (8 * j + i) by omega, streamBit_cons_add, ih (Nat.lt_of_succ_lt_succ h)]
      rfl

theorem byteAt_streamBit (o : Order) (bytes : List Byte) {j : Nat} (h : j < bytes.length) :
    byteAt o (streamBit o bytes) j = bytes[j] := by
  ext k hk
  rw [byteAt, ofNat_getElem hk, streamNumber_testBit, decide_eq_true hk, Bool.true_and,
    streamBit_getElem o bytes h (bitPlace_lt o hk), bitPlace_bitPlace o hk, BitVec.getLsbD_eq_getElem hk]

theorem streamBytes_streamBit (o : Order) (bytes : List Byte) :
    streamBytes o (streamBit o bytes) bytes.length = bytes := by
  apply List.ext_getElem (streamBytes_length ..)
  intro j _ hj
  simp only [streamBytes, List.getElem_map, List.getElem_range, byteAt_streamBit o bytes hj]

theorem decodedCount_encodedCount (o : Order) (n : Nat) : decodedCount o (encodedCount n) = n := by
  cases o <;> rw [decodedCount, encodedCount] <;> omega

theorem streamBit_past_symbols (o : Order) (bytes : List Byte) {i : Nat} (h : 5 * encodedCount bytes.length ≤ i) :
    streamBit o bytes i = false :=
  streamBit_past o bytes (by rw [encodedCount] at h; omega)

/-- The bits left at the end of a Normal-order session are the encoder's zero padding (R151). -/
theorem accAfter_normal_streamBit (bytes : List Byte) :
    accAfter .normal (streamBit .normal bytes) (encodedCount bytes.length) = 0 := by
  have settled : settledBytes .normal (encodedCount bytes.length) = bytes.length := decodedCount_encodedCount .normal _
  have zero : streamNumber .normal (streamBit .normal bytes) (8 * bytes.length)
      (pendingBits .normal (encodedCount bytes.length)) = 0 := by
    apply Nat.eq_of_testBit_eq
    intro k
    rw [streamNumber_testBit, streamBit_past _ _ (Nat.le_add_right ..), Bool.and_false, Nat.zero_testBit]
  rw [accAfter, settled, zero]
  rfl

/-- The symbols an encoder session of `bytes` emits. -/
def encodedSymbols (a : AlphabetUnit) (bytes : List Byte) : List Byte :=
  groupSymbols a bytes (encodedCount bytes.length)

@[simp] theorem encodedSymbols_length (a : AlphabetUnit) (bytes : List Byte) :
    (encodedSymbols a bytes).length = encodedCount bytes.length := by
  rw [encodedSymbols, groupSymbols, List.length_map, List.length_range]

theorem carries_encodedSymbols {a : AlphabetUnit} (tables : InverseTables a) (bytes : List Byte) :
    Carries a (streamBit a.order bytes) (encodedSymbols a bytes) := by
  intro j hj
  rw [groupAt_streamBit]
  simp only [encodedSymbols, groupSymbols, List.getElem_map, List.getElem_range]
  exact revLookup_value (revLookup_fwd tables _)

section
variable {u : State} {bytes : List Byte} {rest : List PortInput}

theorem afterDecode_streamBit_decOut (u : State) (bytes : List Byte) (port : List PortInput) :
    (afterDecode u (streamBit u.alpha.order bytes) (encodedCount bytes.length) port).decOut = u.decOut ++ bytes := by
  change u.decOut ++ streamBytes _ _ (decodedCount _ _) = _
  rw [decodedCount_encodedCount, streamBytes_streamBit]

/-- A decoder session of an encoder's symbols reads the encoder's input back. -/
theorem runSteps_decodeSession_encodedSymbols (tables : InverseTables u.alpha)
    (port : u.port = decodeSession (encodedSymbols u.alpha bytes) ++ rest) :
    runSteps (encodedCount bytes.length + 2) u
      = .next (afterDecode u (streamBit u.alpha.order bytes) (encodedCount bytes.length) rest) := by
  have session := runSteps_decodeSession (carries_encodedSymbols tables bytes)
    (fun i hi => streamBit_past_symbols _ bytes (encodedSymbols_length u.alpha bytes ▸ hi)) port
  rwa [encodedSymbols_length] at session

theorem runSteps_decodeSymbols_encodedSymbols (tables : InverseTables u.alpha)
    (port : u.port = decodeSymbols (encodedSymbols u.alpha bytes) ++ rest) :
    runSteps (encodedCount bytes.length + 1) u
      = .next (midDecode u (streamBit u.alpha.order bytes) (encodedCount bytes.length) rest) := by
  have symbols := runSteps_decodeSymbols (carries_encodedSymbols tables bytes) port
  rwa [encodedSymbols_length] at symbols

/-- Either value of P_NORMAL_TAIL closes such a session in the same way. -/
theorem decFinishWith_midDecode_streamBit (tail : NormalTail) (u : State) (bytes : List Byte) (port : List PortInput) :
    decFinishWith tail (midDecode u (streamBit u.alpha.order bytes) (encodedCount bytes.length) port)
      = .next (afterDecode u (streamBit u.alpha.order bytes) (encodedCount bytes.length) port) := by
  refine decFinishWith_midDecode u _ _ port tail (fun i hi => streamBit_past_symbols _ bytes hi) fun normal _ => ?_
  rw [normal]
  exact accAfter_normal_streamBit bytes

end

/-! ## The statements -/

/-- Settles O34: the symbols' values are the groups of the stream of their bits, so the session ends with the bytes of
that stream. -/
theorem decoderSessionByteCount : Obligations.DecoderSessionByteCount := by
  intro s symbols rest valid port
  have ends (i : Nat) (hi : 5 * symbols.length ≤ i) :
      valueBit s.alpha.order (symbols.map (symbolValue s.alpha)) i = false :=
    valueBit_past _ _ (by rwa [List.length_map])
  refine ⟨_, _, runSteps_decodeSession (carries_valueBit valid) ends port, rfl, rfl, streamBytes_length .., rfl, ?ocnt,
    rfl, afterDecode_frame s _ _ rest⟩
  case ocnt => rw [streamBytes_length]; rfl

/-- Settles O35: an encoder's symbols are the groups of its input's stream, so the decoder reads that very stream back;
in Normal order what it has left at the end are the zeros past the input. -/
theorem roundTrip : Obligations.RoundTrip := by
  intro s bytes rest tables port
  refine ⟨_, encodedSymbols s.alpha bytes, runSteps_encodeSession port, rfl,
    fun u after alpha port => ?session, fun u after alpha port => ?tails⟩
  case session =>
    rw [← alpha] at tables port
    have run := runSteps_decodeSession_encodedSymbols tables port
    have count := congrArg (BitVec.ofNat 32) (decodedCount_encodedCount u.alpha.order bytes.length)
    rw [encodedSymbols_length]
    exact ⟨_, run, rfl, afterDecode_streamBit_decOut u bytes after, count, rfl⟩
  case tails =>
    rw [← alpha] at tables port
    have run := runSteps_decodeSymbols_encodedSymbols tables port
    rw [encodedSymbols_length]
    exact ⟨_, run, fun tail =>
      ⟨_, decFinishWith_midDecode_streamBit tail u bytes after, rfl, afterDecode_streamBit_decOut u bytes after⟩⟩

/-- Settles O36: the symbols before the byte are taken, the byte fails the session, and a failed session takes the rest
of its commands without effect. -/
theorem firstInvalidSymbolIsReported : Obligations.FirstInvalidSymbolIsReported := by
  intro s before d after rest tables valid invalid port
  have symbols (x : Byte) (hx : x ∈ before) : isSymbol s.alpha x := by
    obtain ⟨i, rfl⟩ := valid x hx
    exact isSymbol_fwd tables i
  have unknown : revLookup s.alpha d = none := revLookup_invalid (tables.other d invalid)
  have split : s.port = decodeSymbols before
      ++ sends (.decSym d) :: ((after.map fun x => sends (.decSym x)) ++ sends .decFinish :: rest) := by
    rw [port]
    simp [decodeSession, decodeSymbols]
  have run := calc runSteps (before.length + 1 + (after.length + 2)) s
    _ = _ := runSteps_add (runSteps_decodeSymbols (carries_valueBit symbols) split)
    _ = _ := runSteps_succ_of_step (step_decSym_of_invalid unknown)
    _ = _ := runSteps_of_failed after rfl rfl
  rw [show before.length + after.length + 3 = before.length + 1 + (after.length + 2) by omega]
  exact ⟨_, run, rfl, rfl, rfl, rfl, rfl, by simp [keepsAllBut_iff, raiseDecodeError, midDecode]⟩

end Sys2Proof.Machine
end

section
/-! The control command (44_control.md R200): what clearing the command-error record writes and what it leaves, then the
statement of the family. -/

namespace Sys2Proof.Machine

/-- CLR_ERR has no condition: it clears the record in every state. -/
theorem exec_clrErr (s : State) : exec .clrErr s = .next (clearCmdError s) := rfl

@[simp] theorem clearCmdError_cmdErr (s : State) : (clearCmdError s).cmdErr = ⟨.none, 0⟩ := rfl

/-- Clearing writes the command-error record alone; ALPHA_ERR and the DecodeError record stay (R200). -/
theorem clearCmdError_frame (s : State) : keepsAllBut [.cmdErr] s (clearCmdError s) := by
  simp [keepsAllBut_iff, clearCmdError]

/-! ## The statement -/

/-- Settles O38: the command clears the record and writes nothing else. -/
theorem clrErrClearsRecord : Obligations.ClrErrClearsRecord := by
  intro s
  have record : (clearCmdError s).cmdErr = ⟨.none, 0⟩ := clearCmdError_cmdErr s
  exact ⟨_, exec_clrErr s, congrArg CmdErr.cause record, congrArg CmdErr.word record, clearCmdError_frame s⟩

end Sys2Proof.Machine
end

section
/-! A legal word is the only word of its command (30_encoding.md R84): each row of the map fixes every bit of the word
but those of its operand, and the operand keeps those. -/

namespace Sys2Proof

/-- The command a row assembles from a word it matches has the fields of that word. -/
def OpcodeRow.EncodesBack (r : OpcodeRow) : Prop :=
  ∀ w : Word, w &&& r.mask = r.pattern → (r.command w).raw = rawOfWord w

/-- A word that decodes matches a row, and its command is the row's. -/
theorem exists_row_of_decodeRows {w : Word} {i : Instr} {rows : List OpcodeRow} (h : decodeRows w rows = .instr i) :
    ∃ r ∈ rows, w &&& r.mask = r.pattern ∧ r.command w = i := by
  induction rows with
  | nil => cases h
  | cons r rows ih =>
    by_cases m : w &&& r.mask = r.pattern
    · rw [decodeRows_cons_of_match m] at h
      exact ⟨r, List.mem_cons_self, m, Decoded.instr.inj h⟩
    · rw [decodeRows_cons_of_not_match m] at h
      obtain ⟨q, mem, found⟩ := ih h
      exact ⟨q, List.mem_cons_of_mem r mem, found⟩

/-! ## The forms of a row (R81, R83) -/

/-- A row that fixes OPC and SUB goes by what its command keeps of IMM. -/
theorem OpcodeRow.encodesBack_of_imm {pattern mask : Word} {command : Word → Instr} (immMask : BitVec 24)
    (fields : rawOfWord mask = ⟨0xF#4, 0xF#4, immMask⟩)
    (kept : ∀ w, immField w &&& immMask = immField pattern →
      (command w).raw = ⟨opcField pattern, subField pattern, immField w⟩) :
    OpcodeRow.EncodesBack ⟨pattern, mask, command⟩ := by
  intro w m
  obtain ⟨opc, sub, imm⟩ := RawCommand.mk.inj fields
  obtain ⟨hopc, hsub, himm⟩ := (and_eq_iff_fields ..).mp m
  rw [opc, and_allOnes4] at hopc
  rw [sub, and_allOnes4] at hsub
  rw [imm] at himm
  rw [kept w himm, ← hopc, ← hsub, rawOfWord]

theorem OpcodeRow.encodesBack_fixed {pattern : Word} {i : Instr} (h : i.raw = rawOfWord pattern) :
    OpcodeRow.EncodesBack ⟨pattern, 0xFFFFFFFF, fun _ => i⟩ := by
  refine encodesBack_of_imm 0xFFFFFF (by decide) fun w himm => ?_
  have all : immField w = immField pattern := (and_allOnes24 _).symm.trans himm
  rw [all, h, rawOfWord]

/-- With IMM[23:8] zero the immediate is its low byte. -/
theorem setWidth_byte_of_imm_high {m : BitVec 24} (h : m.extractLsb' 8 16 = 0) :
    (m.extractLsb' 0 8).setWidth 24 = m := by
  ext k hk
  by_cases low : k < 8
  · simp [low, BitVec.getLsbD_eq_getElem hk]
  · have bit : m[k] = false := by
      simpa [show k - 8 < 16 by omega, show 8 + (k - 8) = k by omega, BitVec.getLsbD_eq_getElem hk]
        using congrArg (·.getLsbD (k - 8)) h
    simp [low, bit]

theorem OpcodeRow.encodesBack_byte {pattern : Word} {command : Byte → Instr} (imm : immField pattern = 0)
    (h : ∀ d, (command d).raw = ⟨opcField pattern, subField pattern, d.setWidth 24⟩) :
    OpcodeRow.EncodesBack ⟨pattern, 0xFFFFFF00, fun w => command (byteOperand w)⟩ := by
  refine encodesBack_of_imm 0xFFFF00 (by decide) fun w himm => ?_
  have high : (immField w).extractLsb' 8 16 = 0 := (imm_and_byteMask _).mp (himm.trans imm)
  rw [h, byteOperand, setWidth_byte_of_imm_high high]

theorem OpcodeRow.encodesBack_length {pattern : Word} {command : Length → Instr}
    (h : ∀ n, (command n).raw = ⟨opcField pattern, subField pattern, n⟩) :
    OpcodeRow.EncodesBack ⟨pattern, 0xFF000000, fun w => command (lengthOperand w)⟩ :=
  encodesBack_of_imm 0 (by decide) fun w _ => h (lengthOperand w)

/-- With SUB[3:1] zero the order bit is all of SUB. -/
theorem sub_alphaBegin_of_high : ∀ u : BitVec 4, u.extractLsb' 1 3 = 0 →
    (Instr.alphaBegin (orderOfBit (u.getLsbD 0))).sub = u := by
  decide

theorem OpcodeRow.encodesBack_alphaBegin :
    OpcodeRow.EncodesBack ⟨0x10000000, 0xFEFFFFFF, fun w => .alphaBegin (orderOperand w)⟩ := by
  intro w m
  obtain ⟨hopc, hsub, himm⟩ := (and_eq_iff_fields ..).mp m
  have opc : opcField w = 0x1 := (and_allOnes4 _).symm.trans hopc
  have sub : (Instr.alphaBegin (orderOperand w)).sub = subField w :=
    sub_alphaBegin_of_high _ ((sub_and_orderMask _).mp hsub)
  have imm : immField w = 0 := (and_allOnes24 _).symm.trans himm
  rw [Instr.raw, sub, rawOfWord, opc, imm]
  rfl

theorem opcodeMap_encodesBack : ∀ r ∈ opcodeMap, r.EncodesBack := by
  open OpcodeRow in
  simp only [opcodeMap, List.forall_mem_cons]
  exact ⟨encodesBack_alphaBegin, encodesBack_byte rfl fun _ => rfl, encodesBack_fixed rfl, encodesBack_fixed rfl,
    encodesBack_fixed rfl, encodesBack_fixed rfl, encodesBack_fixed rfl, encodesBack_byte rfl fun _ => rfl,
    encodesBack_fixed rfl, encodesBack_fixed rfl, encodesBack_byte rfl fun _ => rfl, encodesBack_fixed rfl,
    encodesBack_length fun _ => rfl, encodesBack_length fun _ => rfl, encodesBack_fixed rfl, List.forall_mem_nil _⟩

theorem encode_of_decode {w : Word} {i : Instr} (h : decode w = .instr i) : encode i = w := by
  obtain ⟨r, mem, m, rfl⟩ := exists_row_of_decodeRows h
  rw [encode, opcodeMap_encodesBack r mem w m, wordOfRaw_rawOfWord]

end Sys2Proof
end

section
/-! Command errors (60_exceptions.md R212, R213): a command whose row of the table gives a cause only raises it, with
its own word, and one whose row gives none leaves the record unless it is CLR_ERR; then the statement of the family. -/

namespace Sys2Proof.Machine

section
variable {s : State} {c : CmdCause} {i : Instr}

/-! ## The rows of the table, read as conditions

ENC_BYTE shares the row of ENC_FINISH, and DEC_SYM that of DEC_FINISH. -/

theorem cmdErrorOf_alphaByte_eq_none {d : Byte} : cmdErrorOf (.alphaByte d) s = none ↔ s.staging.loading = true := by
  simp [cmdErrorOf]

theorem cmdErrorOf_alphaCommit_eq_some : cmdErrorOf .alphaCommit s = some c ↔
    (s.staging.loading = false ∧ .seqAlpha = c) ∨ (s.staging.loading = true ∧ sessionOpen s ∧ .busy = c) := by
  cases loading : s.staging.loading <;> simp [cmdErrorOf, loading]

theorem cmdErrorOf_alphaCommit_eq_none :
    cmdErrorOf .alphaCommit s = none ↔ s.staging.loading = true ∧ ¬ sessionOpen s := by
  cases loading : s.staging.loading <;> simp [cmdErrorOf, loading]

theorem cmdErrorOf_preset_eq_none (p : Preset) : cmdErrorOf (presetCommand p) s = none ↔ ¬ sessionOpen s := by
  cases p <;> simp [presetCommand, cmdErrorOf]

theorem cmdErrorOf_encFinish_eq_none : cmdErrorOf .encFinish s = none ↔ s.enc.state = .active := by
  simp [cmdErrorOf]

theorem cmdErrorOf_decFinish_eq_some :
    cmdErrorOf .decFinish s = some c ↔ (s.dec.state = .idle ∨ s.dec.state = .done) ∧ .seqDec = c := by
  cases state : s.dec.state <;> simp [cmdErrorOf, state]

theorem cmdErrorOf_decFinish_eq_none :
    cmdErrorOf .decFinish s = none ↔ s.dec.state = .active ∨ s.dec.state = .failed := by
  cases state : s.dec.state <;> simp [cmdErrorOf, state]

/-! ## A command whose row gives a cause -/

theorem exec_alphaCommit_of_idle (h : s.staging.loading = false) :
    exec .alphaCommit s = .next (raiseCmdError .seqAlpha (encode .alphaCommit) s) :=
  if_pos (by simp [h])

theorem exec_alphaCommit_of_open (h : s.staging.loading = true) (opened : sessionOpen s) :
    exec .alphaCommit s = .next (raiseCmdError .busy (encode .alphaCommit) s) :=
  (if_neg (by simp [h])).trans (if_pos ((busy_iff s).mpr opened))

theorem exec_decSym_of_closed (d : Byte) (h : s.dec.state = .idle ∨ s.dec.state = .done) :
    exec (.decSym d) s = .next (raiseCmdError .seqDec (encode (.decSym d)) s) := by
  change execDecSym d s = _
  obtain h | h := h <;> rw [execDecSym, h]

/-- The error is the command's only effect, and it names the command's word. -/
theorem exec_of_cmdErrorOf_some (h : cmdErrorOf i s = some c) :
    exec i s = .next (raiseCmdError c (encode i) s) := by
  cases i with
  | alphaBegin o => cases h
  | alphaByte d =>
    obtain ⟨idle, rfl⟩ := Option.ite_some_none_eq_some.mp h
    rw [exec_alphaByte_of_not_loading d idle, encode_alphaByte]
  | alphaCommit =>
    obtain ⟨idle, rfl⟩ | ⟨loading, opened, rfl⟩ := cmdErrorOf_alphaCommit_eq_some.mp h
    · exact exec_alphaCommit_of_idle idle
    · exact exec_alphaCommit_of_open loading opened
  | alphaPresetZbase32 =>
    obtain ⟨opened, rfl⟩ := Option.ite_some_none_eq_some.mp h
    exact installPreset_of_open .zbase32 _ opened
  | alphaPresetRfc4648 =>
    obtain ⟨opened, rfl⟩ := Option.ite_some_none_eq_some.mp h
    exact installPreset_of_open .rfc4648 _ opened
  | alphaPresetBech32 =>
    obtain ⟨opened, rfl⟩ := Option.ite_some_none_eq_some.mp h
    exact installPreset_of_open .bech32 _ opened
  | encStart => cases h
  | encByte d =>
    obtain ⟨closed, rfl⟩ := Option.ite_some_none_eq_some.mp h
    exact if_neg closed
  | encFinish =>
    obtain ⟨closed, rfl⟩ := Option.ite_some_none_eq_some.mp h
    exact exec_encFinish_of_not_active closed
  | decStart => cases h
  | decSym d =>
    obtain ⟨closed, rfl⟩ := cmdErrorOf_decFinish_eq_some.mp h
    exact exec_decSym_of_closed d closed
  | decFinish =>
    obtain ⟨closed, rfl⟩ := cmdErrorOf_decFinish_eq_some.mp h
    exact exec_decFinish_of_closed closed
  | lenEnc n => cases h
  | lenDec m => cases h
  | clrErr => cases h

/-! ## A command whose row gives none -/

theorem commitStaged_keeps_cmdErr_port (s : State) :
    (commitStaged s).cmdErr = s.cmdErr ∧ (commitStaged s).port = s.port := by
  cases h : validate s.staging.bytes s.staging.len with
  | none => rw [commitStaged_of_ok h]; exact ⟨rfl, rfl⟩
  | some e => rw [commitStaged_of_error h]; exact ⟨rfl, rfl⟩

theorem takeSymbol_keeps_cmdErr_port (d : Byte) (s : State) :
    (takeSymbol d s).cmdErr = s.cmdErr ∧ (takeSymbol d s).port = s.port := by
  cases h : revLookup s.alpha d with
  | none => rw [takeSymbol_of_invalid h]; exact ⟨rfl, rfl⟩
  | some v => rw [takeSymbol_of_value h]; exact ⟨rfl, rfl⟩

/-- The command is performed; of these only CLR_ERR writes the record. -/
theorem exec_of_cmdErrorOf_none (h : cmdErrorOf i s = none) :
    ∃ t, exec i s = .next t ∧ (i ≠ .clrErr → t.cmdErr = s.cmdErr) ∧ t.port = s.port := by
  cases i with
  | alphaBegin o => exact ⟨_, rfl, fun _ => rfl, rfl⟩
  | alphaByte d =>
    exact ⟨_, exec_alphaByte_of_loading d (cmdErrorOf_alphaByte_eq_none.mp h), fun _ => rfl, rfl⟩
  | alphaCommit =>
    obtain ⟨loading, closed⟩ := cmdErrorOf_alphaCommit_eq_none.mp h
    obtain ⟨record, port⟩ := commitStaged_keeps_cmdErr_port s
    exact ⟨_, exec_alphaCommit_of_loading loading closed, fun _ => record, port⟩
  | alphaPresetZbase32 =>
    have closed := (cmdErrorOf_preset_eq_none .zbase32).mp h
    exact ⟨_, installPreset_of_closed .zbase32 _ closed, fun _ => rfl, rfl⟩
  | alphaPresetRfc4648 =>
    have closed := (cmdErrorOf_preset_eq_none .rfc4648).mp h
    exact ⟨_, installPreset_of_closed .rfc4648 _ closed, fun _ => rfl, rfl⟩
  | alphaPresetBech32 =>
    have closed := (cmdErrorOf_preset_eq_none .bech32).mp h
    exact ⟨_, installPreset_of_closed .bech32 _ closed, fun _ => rfl, rfl⟩
  | encStart => exact ⟨_, rfl, fun _ => rfl, rfl⟩
  | encByte d => exact ⟨_, exec_encByte_of_active d (cmdErrorOf_encFinish_eq_none.mp h), fun _ => rfl, rfl⟩
  | encFinish => exact ⟨_, exec_encFinish_of_active (cmdErrorOf_encFinish_eq_none.mp h), fun _ => rfl, rfl⟩
  | decStart => exact ⟨_, rfl, fun _ => rfl, rfl⟩
  | decSym d =>
    obtain active | failed := cmdErrorOf_decFinish_eq_none.mp h
    · obtain ⟨record, port⟩ := takeSymbol_keeps_cmdErr_port d s
      exact ⟨_, exec_decSym_of_active d active, fun _ => record, port⟩
    · exact ⟨_, exec_decSym_of_failed d failed, fun _ => rfl, rfl⟩
  | decFinish =>
    obtain active | failed := cmdErrorOf_decFinish_eq_none.mp h
    · exact ⟨_, decFinishWith_of_active _ active, fun _ => rfl, rfl⟩
    · exact ⟨_, exec_decFinish_of_failed failed, fun _ => rfl, rfl⟩
  | lenEnc n => exact ⟨_, rfl, fun _ => rfl, rfl⟩
  | lenDec m => exact ⟨_, rfl, fun _ => rfl, rfl⟩
  | clrErr => exact ⟨_, rfl, fun other => absurd rfl other, rfl⟩

end

/-! ## The step that takes the word -/

theorem withPort_frame (s : State) (port : List PortInput) : keepsAllBut [.port] s (s.withPort port) := by
  simp [keepsAllBut_iff]

/-- The table does not look at the inputs that still wait. -/
theorem cmdErrorOf_withPort (i : Instr) (s : State) (port : List PortInput) :
    cmdErrorOf i (s.withPort port) = cmdErrorOf i s := rfl

theorem recorded_withPort (s : State) (port : List PortInput) (c : CmdCause) (w : Word) :
    recorded (s.withPort port) c w = recorded s c w := rfl

/-- Taking a word that raises an error records it and writes nothing else. -/
theorem raiseCmdError_withPort_frame (s : State) (port : List PortInput) (c : CmdCause) (w : Word) :
    keepsAllBut [.cmdErr, .port] s (raiseCmdError c w (s.withPort port)) :=
  keepsAllBut_trans (keepsAllBut_mono (withPort_frame s port) (by simp))
    (keepsAllBut_mono (raiseCmdError_frame c w _) (by simp))

theorem step_of_illegal {s : State} {w : Word} {rest : List PortInput} (h : s.port = .command w :: rest)
    (illegal : decode w = .illegal) : step s = .next (raiseCmdError .illegalCmd w (s.withPort rest)) := by
  rw [step_cons h]
  change acceptWord w _ = _
  rw [acceptWord, illegal]

theorem step_of_instr {s : State} {w : Word} {rest : List PortInput} {i : Instr} (h : s.port = .command w :: rest)
    (legal : decode w = .instr i) : step s = exec i (s.withPort rest) := by
  rw [step_cons h]
  change acceptWord w _ = _
  rw [acceptWord, legal]

/-! ## The statement -/

/-- Settles O39: an illegal word raises ILLEGAL_CMD; a legal one is the word of its command, so the word a command
records is the word taken. -/
theorem commandErrorTable : Obligations.CommandErrorTable := by
  intro s w rest h
  have raised (c : CmdCause) : (raiseCmdError c w (s.withPort rest)).cmdErr = recorded s c w
      ∧ keepsAllBut [.cmdErr, .port] s (raiseCmdError c w (s.withPort rest)) :=
    ⟨(raiseCmdError_cmdErr ..).trans (recorded_withPort ..), raiseCmdError_withPort_frame s rest c w⟩
  cases word : decode w with
  | illegal => exact ⟨_, step_of_illegal h word, raiseCmdError_port .., fun _ => raised .illegalCmd, nofun⟩
  | instr i =>
    rw [step_of_instr h word]
    cases row : cmdErrorOf i s with
    | some c =>
      have run := exec_of_cmdErrorOf_some ((cmdErrorOf_withPort i s rest).trans row)
      rw [encode_of_decode word] at run
      refine ⟨_, run, raiseCmdError_port .., nofun, fun j same => ?_⟩
      obtain rfl := Decoded.instr.inj same
      refine ⟨fun c' cause => ?_, fun silent => nomatch row.symm.trans silent⟩
      obtain rfl := Option.some.inj (row.symm.trans cause)
      exact raised c
    | none =>
      obtain ⟨t, run, record, port⟩ := exec_of_cmdErrorOf_none ((cmdErrorOf_withPort i s rest).trans row)
      refine ⟨t, run, port, nofun, fun j same => ?_⟩
      obtain rfl := Decoded.instr.inj same
      exact ⟨fun _ cause => (nomatch row.symm.trans cause), fun _ => record⟩

end Sys2Proof.Machine
end

section
/-! Encoding against decoding (30_encoding.md sections 2 and 3): the word of every command decodes to it, a word has a
command exactly when its fields pass the check of R85, and that check said as the list of R85. -/

namespace Sys2Proof

/-! ## From a command to its word and back -/

theorem decode_encode_alphaByte (d : Byte) : decode (encode (.alphaByte d)) = .instr (.alphaByte d) := by
  obtain ⟨fields, -⟩ := Laws.EncodedFields.alphaByte d
  rw [decode_eq_fields, fields]
  simp [decodeFields, Instr.opc, Instr.sub, Instr.imm, Laws.EncodedFields.byte_imm_high, Machine.extractLsb'_byte_imm]

theorem decode_encode_lenEnc (n : Length) : decode (encode (.lenEnc n)) = .instr (.lenEnc n) := by
  obtain ⟨fields, -⟩ := Laws.EncodedFields.lenEnc n
  rw [decode_eq_fields, fields]
  simp [decodeFields, Instr.opc, Instr.sub, Instr.imm]

theorem decode_encode_lenDec (m : Length) : decode (encode (.lenDec m)) = .instr (.lenDec m) := by
  obtain ⟨fields, -⟩ := Laws.EncodedFields.lenDec m
  rw [decode_eq_fields, fields]
  simp [decodeFields, Instr.opc, Instr.sub, Instr.imm]

theorem decode_encode (i : Instr) : decode (encode i) = .instr i := by
  cases i with
  | alphaBegin o => cases o <;> exact decode_of_match_row 0 rfl
  | alphaByte d => exact decode_encode_alphaByte d
  | alphaCommit => exact decode_of_match_row 2 rfl
  | alphaPresetZbase32 => exact decode_of_match_row 3 rfl
  | alphaPresetRfc4648 => exact decode_of_match_row 4 rfl
  | alphaPresetBech32 => exact decode_of_match_row 5 rfl
  | encStart => exact Machine.decode_encode_encStart
  | encByte d => exact Machine.decode_encode_encByte d
  | encFinish => exact Machine.decode_encode_encFinish
  | decStart => exact Machine.decode_encode_decStart
  | decSym d => exact Machine.decode_encode_decSym d
  | decFinish => exact Machine.decode_encode_decFinish
  | lenEnc n => exact decode_encode_lenEnc n
  | lenDec m => exact decode_encode_lenDec m
  | clrErr => exact decode_of_match_row 14 rfl

theorem wf_of_instr (i : Instr) : i.wf = true := by
  open Laws.EncodedFields in
  cases i with
  | alphaBegin o => exact (alphaBegin o).2
  | alphaByte d => exact (alphaByte d).2
  | encByte d => exact (encByte d).2
  | decSym d => exact (decSym d).2
  | _ => rfl

/-! ## The fields of a legal word (R85) -/

theorem RawCommand.wf_iff (r : RawCommand) :
    r.wf = true ↔ r.opcOk = true ∧ r.subOk = true ∧ r.immOk = true := by
  rw [RawCommand.wf, Bool.and_eq_true, Bool.and_eq_true, and_assoc]

theorem raw_eq_of_fields {i : Instr} {opc sub : BitVec 4} {imm : BitVec 24} (hopc : opc = i.opc)
    (hsub : sub = i.sub) (himm : imm = i.imm) : i.raw = ⟨opc, sub, imm⟩ := by
  rw [hopc, hsub, himm, Instr.raw]

/-- Fields that pass the check of R85 are those of a command: OPC names its row or rows, and what these do not give as
an operand is fixed. -/
theorem exists_raw_of_wf {r : RawCommand} (h : r.wf = true) : ∃ i : Instr, i.raw = r := by
  obtain ⟨opc, sub, imm⟩ := r
  obtain ⟨opcOk, subOk, immOk⟩ := (RawCommand.wf_iff _).mp h
  have named : ∀ o : BitVec 4, (o != 0x0 && o != 0xE && o != 0xF) = true → o = 0x1 ∨ o = 0x2 ∨ o = 0x3 ∨ o = 0x4
      ∨ o = 0x5 ∨ o = 0x6 ∨ o = 0x7 ∨ o = 0x8 ∨ o = 0x9 ∨ o = 0xA ∨ o = 0xB ∨ o = 0xC ∨ o = 0xD := by decide
  have byte (high : (imm.extractLsb' 8 16 == 0) = true) : imm = (imm.extractLsb' 0 8).setWidth 24 :=
    (setWidth_byte_of_imm_high (eq_of_beq high)).symm
  obtain rfl | rfl | rfl | rfl | rfl | rfl | rfl | rfl | rfl | rfl | rfl | rfl | rfl := named opc opcOk
  · exact ⟨.alphaBegin (orderOfBit (sub.getLsbD 0)),
      raw_eq_of_fields rfl (sub_alphaBegin_of_high sub (eq_of_beq subOk)).symm (eq_of_beq immOk)⟩
  · exact ⟨.alphaByte (imm.extractLsb' 0 8), raw_eq_of_fields rfl (eq_of_beq subOk) (byte immOk)⟩
  · exact ⟨.alphaCommit, raw_eq_of_fields rfl (eq_of_beq subOk) (eq_of_beq immOk)⟩
  · have ids : (sub == 0 || sub == 1 || sub == 2) = true := subOk
    simp only [Bool.or_eq_true, beq_iff_eq, or_assoc] at ids
    obtain id | id | id := ids
    · exact ⟨.alphaPresetZbase32, raw_eq_of_fields rfl id (eq_of_beq immOk)⟩
    · exact ⟨.alphaPresetRfc4648, raw_eq_of_fields rfl id (eq_of_beq immOk)⟩
    · exact ⟨.alphaPresetBech32, raw_eq_of_fields rfl id (eq_of_beq immOk)⟩
  · exact ⟨.encStart, raw_eq_of_fields rfl (eq_of_beq subOk) (eq_of_beq immOk)⟩
  · exact ⟨.encByte (imm.extractLsb' 0 8), raw_eq_of_fields rfl (eq_of_beq subOk) (byte immOk)⟩
  · exact ⟨.encFinish, raw_eq_of_fields rfl (eq_of_beq subOk) (eq_of_beq immOk)⟩
  · exact ⟨.decStart, raw_eq_of_fields rfl (eq_of_beq subOk) (eq_of_beq immOk)⟩
  · exact ⟨.decSym (imm.extractLsb' 0 8), raw_eq_of_fields rfl (eq_of_beq subOk) (byte immOk)⟩
  · exact ⟨.decFinish, raw_eq_of_fields rfl (eq_of_beq subOk) (eq_of_beq immOk)⟩
  · exact ⟨.lenEnc imm, raw_eq_of_fields rfl (eq_of_beq subOk) rfl⟩
  · exact ⟨.lenDec imm, raw_eq_of_fields rfl (eq_of_beq subOk) rfl⟩
  · exact ⟨.clrErr, raw_eq_of_fields rfl (eq_of_beq subOk) (eq_of_beq immOk)⟩

theorem decode_eq_illegal_iff (w : Word) : decode w = .illegal ↔ (rawOfWord w).wf = false := by
  rw [← Bool.not_eq_true]
  constructor
  · intro illegal wf
    obtain ⟨i, fields⟩ := exists_raw_of_wf wf
    have word : encode i = w := by rw [encode, fields, wordOfRaw_rawOfWord]
    rw [← word, decode_encode] at illegal
    cases illegal
  · intro refused
    cases legal : decode w with
    | illegal => rfl
    | instr i =>
      have fields : rawOfWord w = i.raw := by rw [← encode_of_decode legal, encode, rawOfWord_wordOfRaw]
      exact absurd (fields ▸ wf_of_instr i) refused

/-! ## The list of R85 -/

section
variable (r : RawCommand)

theorem RawCommand.opcOk_eq_false_iff : r.opcOk = false ↔ r.opc = 0x0 ∨ r.opc = 0xE ∨ r.opc = 0xF := by
  have table : ∀ o : BitVec 4, (o != 0x0 && o != 0xE && o != 0xF) = false ↔ o = 0x0 ∨ o = 0xE ∨ o = 0xF := by
    decide
  exact table r.opc

theorem RawCommand.subOk_eq_false_iff : r.subOk = false ↔
    (r.opc = 0x1 ∧ r.sub.extractLsb' 1 3 ≠ 0) ∨ (r.opc = 0x4 ∧ 3 ≤ r.sub.toNat)
      ∨ (r.opc ≠ 0x1 ∧ r.opc ≠ 0x4 ∧ r.sub ≠ 0) := by
  have ids : ∀ u : BitVec 4, (u == 0 || u == 1 || u == 2) = false ↔ 3 ≤ u.toNat := by decide
  unfold RawCommand.subOk
  split
  · next begins => simp [begins]
  · next other =>
    split
    · next preset => simp only [ids, preset]; simp
    · next rest => simp_all

theorem RawCommand.immOk_eq_false_iff : r.immOk = false ↔
    ((r.opc = 0x2 ∨ r.opc = 0x6 ∨ r.opc = 0x9) ∧ r.imm.extractLsb' 8 16 ≠ 0)
      ∨ (r.opc ∉ [(0x2 : BitVec 4), 0x6, 0x9, 0xB, 0xC] ∧ r.imm ≠ 0) := by
  unfold RawCommand.immOk
  split
  · next byte => obtain h | h | h := byte <;> simp [h]
  · next other =>
    split
    · next length => obtain h | h := length <;> simp [h]
    · next rest => simp_all

end

/-! ## The statements -/

/-- Settles O1: each fixed word by the row it matches, each operand read back from its field. -/
theorem decodeOfEncodedCommand : Obligations.DecodeOfEncodedCommand :=
  fun i => ⟨wf_of_instr i, decode_encode i⟩

/-- Settles O2: each row of the map gives back the fields of the words it matches. -/
theorem encodeOfDecodedWord : Obligations.EncodeOfDecodedWord :=
  fun _ _ => encode_of_decode

/-- Settles O4: a word decodes exactly when its fields pass the check, and the check fails at OPC, SUB or IMM as the list
says. -/
theorem illegalWordsByField : Obligations.IllegalWordsByField := by
  intro w
  have order : (subField w).extractLsb' 1 3 = w.extractLsb 27 25 := by
    ext k hk
    simp [subField, ← Nat.add_assoc, show 1 + k < 4 by omega]
  have high : (immField w).extractLsb' 8 16 = w.extractLsb 23 8 := by
    ext k hk
    simp [immField]
  constructor
  · rw [ne_eq, decode_eq_illegal_iff, Bool.not_eq_false]
  · rw [decode_eq_illegal_iff, RawCommand.wf, Bool.and_eq_false_iff, Bool.and_eq_false_iff,
      RawCommand.opcOk_eq_false_iff, RawCommand.subOk_eq_false_iff, RawCommand.immOk_eq_false_iff]
    simp only [rawOfWord, order, high, or_assoc]
    rfl

end Sys2Proof
end

section
/-! What a command does, said once (00_scope.md section 5; 60_exceptions.md R210 to R213): the state a performed command
leaves, the parts it may write, and the two things that can happen to a word the block takes; then the statements about
single steps and about the writers of each part. -/

namespace Sys2Proof.Machine

/-! ## The state a command leaves when it is performed -/

/-- The effect of ALPHA_PRESET outside a session (40_alphabet.md R109). -/
def presetInstalled (p : Preset) (s : State) : State :=
  (s.withAlpha (installAlphabet (presetTable p) (presetOrder p) (presetSrc p))).withAlphaErr noAlphaErr

/-- The state after a command that raises no command error (`exec_eq_performed`). -/
def performed (i : Instr) (s : State) : State :=
  match i with
  | .alphaBegin o => s.withStaging { s.staging with len := 0, order := o, loading := true }
  | .alphaByte d => s.withStaging (stageByte s.staging d)
  | .alphaCommit => commitStaged s
  | .alphaPresetZbase32 => presetInstalled .zbase32 s
  | .alphaPresetRfc4648 => presetInstalled .rfc4648 s
  | .alphaPresetBech32 => presetInstalled .bech32 s
  | .encStart => s.withEnc { state := .active, phase := 0, carry := 0, pend := false, icnt := 0, ocnt := 0 }
  | .encByte d => takeByte d s
  | .encFinish => (s.emitEnc (finalSymbols s)).withEnc s.enc.closed
  | .decStart =>
    s.withDec { state := .active, acc := 0, nbits := 0, icnt := 0, ocnt := 0, errOff := 0, errByte := 0 }
  | .decSym d => if s.dec.state = .failed then s else takeSymbol d s
  | .decFinish => if s.dec.state = .failed then s else closeDecoder Config.normalTail s
  | .lenEnc n => s.withLenOut (BitVec.ofNat 32 (encodedLength n.toNat))
  | .lenDec m => s.withLenOut (BitVec.ofNat 32 (decodedLengthUpperBound m.toNat))
  | .clrErr => clearCmdError s

section
variable {s : State} {i : Instr} {c : CmdCause}

theorem performed_decSym_of_active (d : Byte) (h : s.dec.state = .active) : performed (.decSym d) s = takeSymbol d s :=
  if_neg (by simp [h])

theorem performed_decSym_of_failed (d : Byte) (h : s.dec.state = .failed) : performed (.decSym d) s = s :=
  if_pos h

theorem performed_decFinish_of_active (h : s.dec.state = .active) :
    performed .decFinish s = closeDecoder Config.normalTail s :=
  if_neg (by simp [h])

theorem performed_decFinish_of_failed (h : s.dec.state = .failed) : performed .decFinish s = s :=
  if_pos h

theorem exec_eq_performed (h : cmdErrorOf i s = none) : exec i s = .next (performed i s) := by
  cases i with
  | alphaByte d => exact exec_alphaByte_of_loading d (cmdErrorOf_alphaByte_eq_none.mp h)
  | alphaCommit =>
    obtain ⟨loading, closed⟩ := cmdErrorOf_alphaCommit_eq_none.mp h
    exact exec_alphaCommit_of_loading loading closed
  | alphaPresetZbase32 => exact installPreset_of_closed .zbase32 _ ((cmdErrorOf_preset_eq_none .zbase32).mp h)
  | alphaPresetRfc4648 => exact installPreset_of_closed .rfc4648 _ ((cmdErrorOf_preset_eq_none .rfc4648).mp h)
  | alphaPresetBech32 => exact installPreset_of_closed .bech32 _ ((cmdErrorOf_preset_eq_none .bech32).mp h)
  | encByte d => exact exec_encByte_of_active d (cmdErrorOf_encFinish_eq_none.mp h)
  | encFinish => exact exec_encFinish_of_active (cmdErrorOf_encFinish_eq_none.mp h)
  | decSym d =>
    obtain active | failed := cmdErrorOf_decFinish_eq_none.mp h
    · rw [exec_decSym_of_active d active, performed_decSym_of_active d active]
    · rw [exec_decSym_of_failed d failed, performed_decSym_of_failed d failed]
  | decFinish =>
    obtain active | failed := cmdErrorOf_decFinish_eq_none.mp h
    · rw [performed_decFinish_of_active active]
      exact decFinishWith_of_active Config.normalTail active
    · rw [exec_decFinish_of_failed failed, performed_decFinish_of_failed failed]
  | lenEnc n => exact exec_lenEnc n s
  | lenDec m => exact exec_lenDec m s
  | _ => rfl

/-! ## The parts a command may write -/

/-- The parts of State a performed command may write. -/
def writes : Instr → List Part
  | .alphaBegin _ => [.staging]
  | .alphaByte _ => [.staging]
  | .alphaCommit => [.alpha, .staging, .alphaErr]
  | .alphaPresetZbase32 => [.alpha, .alphaErr]
  | .alphaPresetRfc4648 => [.alpha, .alphaErr]
  | .alphaPresetBech32 => [.alpha, .alphaErr]
  | .encStart => [.enc]
  | .encByte _ => [.enc, .encOut]
  | .encFinish => [.enc, .encOut]
  | .decStart => [.dec]
  | .decSym _ => [.dec, .decOut]
  | .decFinish => [.dec, .decOut]
  | .lenEnc _ => [.lenOut]
  | .lenDec _ => [.lenOut]
  | .clrErr => [.cmdErr]

theorem commitStaged_frame (s : State) : keepsAllBut [.alpha, .staging, .alphaErr] s (commitStaged s) := by
  cases h : validate s.staging.bytes s.staging.len with
  | none => rw [commitStaged_of_ok h]; simp [keepsAllBut_iff]
  | some e => rw [commitStaged_of_error h]; exact keepsAllBut_mono (raiseAlphaError_frame e s) (by simp)

theorem presetInstalled_frame (p : Preset) (s : State) : keepsAllBut [.alpha, .alphaErr] s (presetInstalled p s) := by
  simp [keepsAllBut_iff, presetInstalled]

theorem takeSymbol_frame (d : Byte) (s : State) : keepsAllBut [.dec, .decOut] s (takeSymbol d s) := by
  cases h : revLookup s.alpha d with
  | none => rw [takeSymbol_of_invalid h]; exact keepsAllBut_mono (withDec_frame s _) (by simp)
  | some v => rw [takeSymbol_of_value h]; exact emitDec_withDec_frame s _ _

theorem performed_frame (i : Instr) (s : State) : keepsAllBut (writes i) s (performed i s) := by
  cases i with
  | alphaBegin o => exact withStaging_frame s _
  | alphaByte d => exact withStaging_frame s _
  | alphaCommit => exact commitStaged_frame s
  | alphaPresetZbase32 => exact presetInstalled_frame .zbase32 s
  | alphaPresetRfc4648 => exact presetInstalled_frame .rfc4648 s
  | alphaPresetBech32 => exact presetInstalled_frame .bech32 s
  | encStart => simp [keepsAllBut_iff, performed, writes]
  | encByte d => exact emitEnc_withEnc_frame s _ _
  | encFinish => exact emitEnc_withEnc_frame s _ _
  | decStart => exact withDec_frame s _
  | decSym d =>
    rw [performed]
    split
    · exact keepsAllBut_refl _ s
    · exact takeSymbol_frame d s
  | decFinish =>
    rw [performed]
    split
    · exact keepsAllBut_refl _ s
    · exact emitDec_withDec_frame s _ _
  | lenEnc n => exact withLenOut_frame s _
  | lenDec m => exact withLenOut_frame s _
  | clrErr => exact clearCmdError_frame s

/-! Who writes each part. -/

theorem alpha_mem_writes (h : .alpha ∈ writes i) : i = .alphaCommit ∨ ∃ p, i = presetCommand p := by
  cases i with
  | alphaCommit => exact .inl rfl
  | alphaPresetZbase32 => exact .inr ⟨.zbase32, rfl⟩
  | alphaPresetRfc4648 => exact .inr ⟨.rfc4648, rfl⟩
  | alphaPresetBech32 => exact .inr ⟨.bech32, rfl⟩
  | _ => simp [writes] at h

/-- A successful installation clears the record it would otherwise write. -/
theorem alphaErr_mem_writes_iff : .alphaErr ∈ writes i ↔ .alpha ∈ writes i := by
  cases i <;> simp [writes]

theorem staging_mem_writes (h : .staging ∈ writes i) :
    (∃ o, i = .alphaBegin o) ∨ (∃ d, i = .alphaByte d) ∨ i = .alphaCommit := by
  cases i with
  | alphaBegin o => exact .inl ⟨o, rfl⟩
  | alphaByte d => exact .inr (.inl ⟨d, rfl⟩)
  | alphaCommit => exact .inr (.inr rfl)
  | _ => simp [writes] at h

theorem enc_mem_writes_iff : .enc ∈ writes i ↔ isEncoderCommand i = true := by
  cases i <;> simp [writes, isEncoderCommand]

theorem dec_mem_writes_iff : .dec ∈ writes i ↔ isDecoderCommand i = true := by
  cases i <;> simp [writes, isDecoderCommand]

theorem lenOut_mem_writes (h : .lenOut ∈ writes i) : (∃ n, i = .lenEnc n) ∨ ∃ m, i = .lenDec m := by
  cases i with
  | lenEnc n => exact .inl ⟨n, rfl⟩
  | lenDec m => exact .inr ⟨m, rfl⟩
  | _ => simp [writes] at h

theorem cmdErr_mem_writes (h : .cmdErr ∈ writes i) : i = .clrErr := by
  cases i with
  | clrErr => rfl
  | _ => simp [writes] at h

theorem encOut_mem_writes (h : .encOut ∈ writes i) : (∃ d, i = .encByte d) ∨ i = .encFinish := by
  cases i with
  | encByte d => exact .inl ⟨d, rfl⟩
  | encFinish => exact .inr rfl
  | _ => simp [writes] at h

theorem decOut_mem_writes (h : .decOut ∈ writes i) : (∃ d, i = .decSym d) ∨ i = .decFinish := by
  cases i with
  | decSym d => exact .inl ⟨d, rfl⟩
  | decFinish => exact .inr rfl
  | _ => simp [writes] at h

theorem port_notMem_writes (i : Instr) : .port ∉ writes i := by
  cases i <;> simp [writes]

/-! ## What can happen to a word -/

/-- A command in any state: it raises the cause of its row, or it is performed. -/
theorem exec_cases (i : Instr) (s : State) :
    (∃ c, cmdErrorOf i s = some c ∧ exec i s = .next (raiseCmdError c (encode i) s))
    ∨ cmdErrorOf i s = none ∧ exec i s = .next (performed i s) := by
  cases row : cmdErrorOf i s with
  | some c => exact .inl ⟨c, rfl, exec_of_cmdErrorOf_some row⟩
  | none => exact .inr ⟨rfl, exec_eq_performed row⟩

theorem exec_answers (i : Instr) (s : State) : ∃ t, exec i s = .next t := by
  obtain ⟨_, -, run⟩ | ⟨-, run⟩ := exec_cases i s
  · exact ⟨_, run⟩
  · exact ⟨_, run⟩

/-- The cause a command raises is one its word can raise (60_exceptions.md R211). -/
theorem cmdErrFits_of_cmdErrorOf {w : Word} (legal : decode w = .instr i) (h : cmdErrorOf i s = some c) :
    cmdErrFits ⟨c, w⟩ := by
  cases i with
  | alphaByte d =>
    obtain ⟨-, rfl⟩ := Option.ite_some_none_eq_some.mp h
    exact .inl ⟨d, legal⟩
  | alphaCommit =>
    obtain ⟨-, rfl⟩ | ⟨-, -, rfl⟩ := cmdErrorOf_alphaCommit_eq_some.mp h
    · exact .inr legal
    · exact .inl legal
  | alphaPresetZbase32 =>
    obtain ⟨-, rfl⟩ := Option.ite_some_none_eq_some.mp h
    exact .inr (.inl legal)
  | alphaPresetRfc4648 =>
    obtain ⟨-, rfl⟩ := Option.ite_some_none_eq_some.mp h
    exact .inr (.inr (.inl legal))
  | alphaPresetBech32 =>
    obtain ⟨-, rfl⟩ := Option.ite_some_none_eq_some.mp h
    exact .inr (.inr (.inr legal))
  | encByte d =>
    obtain ⟨-, rfl⟩ := Option.ite_some_none_eq_some.mp h
    exact .inl ⟨d, legal⟩
  | encFinish =>
    obtain ⟨-, rfl⟩ := Option.ite_some_none_eq_some.mp h
    exact .inr legal
  | decSym d =>
    obtain ⟨-, rfl⟩ := cmdErrorOf_decFinish_eq_some.mp h
    exact .inl ⟨d, legal⟩
  | decFinish =>
    obtain ⟨-, rfl⟩ := cmdErrorOf_decFinish_eq_some.mp h
    exact .inr legal
  | _ => cases h

/-- The block takes a word: it raises a cause that word can raise, naming it, or it performs the command. -/
theorem step_command_cases {w : Word} {rest : List PortInput} (h : s.port = .command w :: rest) :
    (∃ c, cmdErrFits ⟨c, w⟩ ∧ step s = .next (raiseCmdError c w (s.withPort rest)))
    ∨ ∃ i, decode w = .instr i ∧ cmdErrorOf i s = none ∧ step s = .next (performed i (s.withPort rest)) := by
  cases word : decode w with
  | illegal => exact .inl ⟨.illegalCmd, word, step_of_illegal h word⟩
  | instr i =>
    have run := step_of_instr h word
    obtain ⟨c, row, raised⟩ | ⟨row, done⟩ := exec_cases i (s.withPort rest)
    · rw [encode_of_decode word] at raised
      exact .inl ⟨c, cmdErrFits_of_cmdErrorOf word row, run.trans raised⟩
    · exact .inr ⟨i, rfl, row, run.trans done⟩

theorem step_reset {rest : List PortInput} (h : s.port = .reset :: rest) :
    step s = .next (State.reset.withPort rest) :=
  step_cons h

theorem recorded_of_none {w : Word} (h : s.cmdErr.cause = .none) : recorded s c w = ⟨c, w⟩ := if_pos h

theorem recorded_of_some {w : Word} (h : s.cmdErr.cause ≠ .none) : recorded s c w = s.cmdErr := if_neg h

/-- No command other than CLR_ERR writes the command-error record when it is performed. -/
theorem performed_cmdErr (h : i ≠ .clrErr) : (performed i s).cmdErr = s.cmdErr :=
  performed_frame i s .cmdErr fun written => h (cmdErr_mem_writes written)

/-- A command that would write the alphabet is refused while a session is open. -/
theorem performed_alpha_of_open (row : cmdErrorOf i s = none) (opened : sessionOpen s) :
    (performed i s).alpha = s.alpha := by
  refine performed_frame i s .alpha fun written => ?_
  obtain rfl | ⟨p, rfl⟩ := alpha_mem_writes written
  · obtain ⟨-, closed⟩ := cmdErrorOf_alphaCommit_eq_none.mp row
    exact closed opened
  · exact (cmdErrorOf_preset_eq_none p).mp row opened

/-! ## What a command appends (10_state.md R42) -/

theorem symbolCount_le_two (p : Fin 5) : symbolCount p ≤ 2 := by
  revert p
  decide

theorem finalSymbols_length_le (s : State) : (finalSymbols s).length ≤ 1 := by
  cases pend : s.enc.pend with
  | false => simp [finalSymbols_of_not_pend pend]
  | true => simp [finalSymbols_of_pend pend]

theorem performed_encOut (i : Instr) (s : State) :
    ∃ xs, (performed i s).encOut = s.encOut ++ xs ∧ xs.length ≤ 2 := by
  by_cases written : .encOut ∈ writes i
  · obtain ⟨d, rfl⟩ | rfl := encOut_mem_writes written
    · exact ⟨_, rfl, by simpa using symbolCount_le_two s.enc.phase⟩
    · exact ⟨_, rfl, (finalSymbols_length_le s).trans (by decide)⟩
  · exact ⟨[], by rw [List.append_nil]; exact performed_frame i s .encOut written, by decide⟩

theorem toList_length_le (e : Option Byte) : e.toList.length ≤ 1 := by
  cases e <;> simp

theorem takeSymbol_decOut (d : Byte) (s : State) :
    ∃ ys, (takeSymbol d s).decOut = s.decOut ++ ys ∧ ys.length ≤ 1 := by
  cases h : revLookup s.alpha d with
  | none => exact ⟨[], by rw [takeSymbol_of_invalid h, List.append_nil]; rfl, by decide⟩
  | some v => exact ⟨_, by rw [takeSymbol_of_value h]; rfl, toList_length_le _⟩

theorem performed_decOut (i : Instr) (s : State) :
    ∃ ys, (performed i s).decOut = s.decOut ++ ys ∧ ys.length ≤ 1 := by
  have held : ∃ ys, s.decOut = s.decOut ++ ys ∧ ys.length ≤ 1 := ⟨[], (List.append_nil _).symm, by decide⟩
  by_cases written : .decOut ∈ writes i
  · obtain ⟨d, rfl⟩ | rfl := decOut_mem_writes written
    · rw [performed]
      split
      · exact held
      · exact takeSymbol_decOut d s
    · rw [performed]
      split
      · exact held
      · exact ⟨_, rfl, toList_length_le _⟩
  · rwa [show (performed i s).decOut = s.decOut from performed_frame i s .decOut written]

end

/-! ## The statements -/

/-- Settles O6: taking a word that decodes is running its command. -/
theorem stepRunsDecodedCommand : Obligations.StepRunsDecodedCommand :=
  fun _ _ _ _ => step_of_instr

/-- Settles O7: with nothing on the port there is nothing to take. -/
theorem idleBlockHoldsState : Obligations.IdleBlockHoldsState :=
  fun _ => step_nil

/-- Settles O8: no input, a reset, a word refused and a word performed each give a next state. -/
theorem stepNeverStops : Obligations.StepNeverStops := by
  intro s
  cases waiting : s.port with
  | nil => exact ⟨_, step_nil waiting⟩
  | cons x rest =>
    cases x with
    | reset => exact ⟨_, step_reset waiting⟩
    | command w =>
      obtain ⟨_, -, run⟩ | ⟨_, -, -, run⟩ := step_command_cases waiting
      · exact ⟨_, run⟩
      · exact ⟨_, run⟩

/-- Settles O10: a pulse taken from the port sets all but the port to reset. -/
theorem resetInputGivesResetState : Obligations.ResetInputGivesResetState :=
  fun _ _ => step_reset

/-- Settles O40: a raised error names the word taken, and a performed command leaves the empty record empty. -/
theorem recordedWordIsAcceptedWord : Obligations.RecordedWordIsAcceptedWord := by
  intro s w rest port empty
  obtain ⟨c, -, run⟩ | ⟨i, -, -, run⟩ := step_command_cases port
  · exact ⟨_, run, fun _ => by rw [raiseCmdError_cmdErr, recorded_withPort, recorded_of_none empty]⟩
  · refine ⟨_, run, fun error => absurd ?_ error⟩
    by_cases clear : i = .clrErr
    · subst clear
      rfl
    · rw [performed_cmdErr clear]
      exact empty

/-- Settles O41: a raised error gives way to the one recorded, and a performed command leaves the record. -/
theorem firstCommandErrorIsKept : Obligations.FirstCommandErrorIsKept := by
  intro s w rest port error other
  obtain ⟨c, -, run⟩ | ⟨i, word, -, run⟩ := step_command_cases port
  · exact ⟨_, run, (raiseCmdError_cmdErr ..).trans (recorded_of_some error)⟩
  · exact ⟨_, run, performed_cmdErr fun clear => other (clear ▸ word)⟩

/-- Settles O42: a part that changed is one the command may write, and each part is written by the commands listed. -/
theorem writersOfEachPart : Obligations.WritersOfEachPart := by
  intro i s
  obtain ⟨t, run, frame⟩ : ∃ t, exec i s = .next t ∧ keepsAllBut (.cmdErr :: writes i) s t := by
    obtain ⟨c, -, run⟩ | ⟨-, run⟩ := exec_cases i s
    · exact ⟨_, run, keepsAllBut_mono (raiseCmdError_frame c _ s) (by simp)⟩
    · exact ⟨_, run, keepsAllBut_mono (performed_frame i s) fun _ => List.mem_cons_of_mem _⟩
  have written {p : Part} (other : p ≠ .cmdErr) (changed : ¬ Part.same s t p) : p ∈ writes i := by
    by_contra kept
    exact changed (frame p (by simp [other, kept]))
  exact ⟨t, run,
    fun changed => alpha_mem_writes (written nofun changed),
    fun changed => staging_mem_writes (written nofun changed),
    fun changed => enc_mem_writes_iff.mp (written nofun changed),
    fun changed => dec_mem_writes_iff.mp (written nofun changed),
    fun changed => lenOut_mem_writes (written nofun changed),
    fun changed => alpha_mem_writes (alphaErr_mem_writes_iff.mp (written nofun changed)),
    fun changed => encOut_mem_writes (written nofun changed),
    fun changed => decOut_mem_writes (written nofun changed),
    frame .port (by simp [port_notMem_writes])⟩

/-- Settles O43: a raised error leaves the alphabet, and a command that would write it raises BUSY or SEQ_ALPHA. -/
theorem alphabetFrozenDuringSession : Obligations.AlphabetFrozenDuringSession := by
  intro s w rest port opened
  obtain ⟨c, -, run⟩ | ⟨i, -, row, run⟩ := step_command_cases port
  · exact ⟨_, run, raiseCmdError_alpha ..⟩
  · exact ⟨_, run, performed_alpha_of_open (s := s.withPort rest) row opened⟩

/-- Settles O44: a raised error leaves the streams; of the performed commands one byte yields at most two symbols, and
one symbol or the tail at most one byte. -/
theorem streamsOnlyGrow : Obligations.StreamsOnlyGrow := by
  intro s w rest port
  obtain ⟨c, -, run⟩ | ⟨i, -, -, run⟩ := step_command_cases port
  · exact ⟨_, [], [], run, by simp, by decide, by simp, by decide⟩
  · obtain ⟨xs, encOut, two⟩ := performed_encOut i (s.withPort rest)
    obtain ⟨ys, decOut, one⟩ := performed_decOut i (s.withPort rest)
    exact ⟨_, xs, ys, run, encOut, two, decOut, one⟩

end Sys2Proof.Machine
end

section
/-! The two units (60_exceptions.md R226): a unit's command does to its own registers and stream what it would do with
nothing else in the block but the alphabet; then the two statements about interleaving. -/

namespace Sys2Proof.Machine

/-! ## A unit alone -/

/-- The reset state with an alphabet and an encoder put in. -/
def encoderAlone (a : AlphabetUnit) (e : EncoderUnit) : State := (State.reset.withAlpha a).withEnc e

/-- The reset state with an alphabet and a decoder put in. -/
def decoderAlone (a : AlphabetUnit) (d : DecoderUnit) : State := (State.reset.withAlpha a).withDec d

/-- The encoder's registers after a command, from its own registers and the alphabet. -/
def encoderAfter (i : Instr) (a : AlphabetUnit) (e : EncoderUnit) : EncoderUnit := (performed i (encoderAlone a e)).enc

/-- The symbols a command emits, from the encoder's registers and the alphabet. -/
def symbolsOf (i : Instr) (a : AlphabetUnit) (e : EncoderUnit) : List Byte := (performed i (encoderAlone a e)).encOut

/-- The decoder's registers after a command, from its own registers and the alphabet. -/
def decoderAfter (i : Instr) (a : AlphabetUnit) (d : DecoderUnit) : DecoderUnit := (performed i (decoderAlone a d)).dec

/-- The bytes a command emits, from the decoder's registers and the alphabet. -/
def bytesOf (i : Instr) (a : AlphabetUnit) (d : DecoderUnit) : List Byte := (performed i (decoderAlone a d)).decOut

section
variable {i : Instr} (s : State)

theorem withDec_self : s.withDec s.dec = s := rfl

theorem performed_encoder (h : isEncoderCommand i = true) : performed i s
    = (s.emitEnc (symbolsOf i s.alpha s.enc)).withEnc (encoderAfter i s.alpha s.enc) := by
  cases i with
  | encStart => exact congrArg (State.withEnc · _) s.emitEnc_nil.symm
  | encByte d => rfl
  | encFinish => rfl
  | _ => cases h

theorem takeSymbol_alone (d : Byte) : takeSymbol d s
    = (s.emitDec (takeSymbol d (decoderAlone s.alpha s.dec)).decOut).withDec
        (takeSymbol d (decoderAlone s.alpha s.dec)).dec := by
  have lookup : revLookup (decoderAlone s.alpha s.dec).alpha d = revLookup s.alpha d := rfl
  cases h : revLookup s.alpha d with
  | none =>
    rw [takeSymbol_of_invalid h, takeSymbol_of_invalid (lookup.trans h)]
    exact congrArg (State.withDec · _) s.emitDec_nil.symm
  | some v =>
    rw [takeSymbol_of_value h, takeSymbol_of_value (lookup.trans h)]
    rfl

theorem performed_decoder (h : isDecoderCommand i = true) : performed i s
    = (s.emitDec (bytesOf i s.alpha s.dec)).withDec (decoderAfter i s.alpha s.dec) := by
  have held : s = (s.emitDec []).withDec s.dec := by rw [State.emitDec_nil, withDec_self]
  have alone : (decoderAlone s.alpha s.dec).dec.state = s.dec.state := rfl
  cases i with
  | decStart => exact congrArg (State.withDec · _) s.emitDec_nil.symm
  | decSym d =>
    rw [bytesOf, decoderAfter]
    by_cases failed : s.dec.state = .failed
    · rw [performed_decSym_of_failed d failed, performed_decSym_of_failed d (alone.trans failed)]
      exact held
    · simp only [performed, alone, if_neg failed]
      exact takeSymbol_alone s d
  | decFinish =>
    rw [bytesOf, decoderAfter]
    by_cases failed : s.dec.state = .failed
    · rw [performed_decFinish_of_failed failed, performed_decFinish_of_failed (alone.trans failed)]
      exact held
    · simp only [performed, alone, if_neg failed]
      rfl
  | _ => cases h

end

section
variable {i : Instr} {s₁ s₂ : State}

/-- Whether an encoder command is refused depends on the encoder alone. -/
theorem cmdErrorOf_congr_enc (h : isEncoderCommand i = true) (same : s₁.enc = s₂.enc) :
    cmdErrorOf i s₁ = cmdErrorOf i s₂ := by
  cases i with
  | encStart => rfl
  | encByte d => rw [cmdErrorOf, cmdErrorOf, same]
  | encFinish => rw [cmdErrorOf, cmdErrorOf, same]
  | _ => cases h

/-- Whether a decoder command is refused depends on the decoder alone. -/
theorem cmdErrorOf_congr_dec (h : isDecoderCommand i = true) (same : s₁.dec = s₂.dec) :
    cmdErrorOf i s₁ = cmdErrorOf i s₂ := by
  cases i with
  | decStart => rfl
  | decSym d => rw [cmdErrorOf, cmdErrorOf, same]
  | decFinish => rw [cmdErrorOf, cmdErrorOf, same]
  | _ => cases h

end

/-- An encoder command does the same to every state with the same alphabet and encoder. -/
theorem exec_encoder_uniform {i : Instr} (unit : isEncoderCommand i = true) (a : AlphabetUnit) (e : EncoderUnit) :
    ∃ e' xs, ∀ s t, s.alpha = a → s.enc = e → exec i s = .next t → t.enc = e' ∧ t.encOut = s.encOut ++ xs := by
  cases row : cmdErrorOf i (encoderAlone a e) with
  | some c =>
    refine ⟨e, [], fun s t alpha enc run => ?_⟩
    rw [exec_of_cmdErrorOf_some ((cmdErrorOf_congr_enc unit enc).trans row)] at run
    obtain rfl := Host.Outcome.next.inj run
    simp [enc]
  | none =>
    refine ⟨encoderAfter i a e, symbolsOf i a e, fun s t alpha enc run => ?_⟩
    rw [exec_eq_performed ((cmdErrorOf_congr_enc unit enc).trans row), performed_encoder s unit, alpha, enc] at run
    obtain rfl := Host.Outcome.next.inj run
    exact ⟨rfl, rfl⟩

/-- A decoder command does the same to every state with the same alphabet and decoder. -/
theorem exec_decoder_uniform {i : Instr} (unit : isDecoderCommand i = true) (a : AlphabetUnit) (d : DecoderUnit) :
    ∃ d' ys, ∀ s t, s.alpha = a → s.dec = d → exec i s = .next t → t.dec = d' ∧ t.decOut = s.decOut ++ ys := by
  cases row : cmdErrorOf i (decoderAlone a d) with
  | some c =>
    refine ⟨d, [], fun s t alpha dec run => ?_⟩
    rw [exec_of_cmdErrorOf_some ((cmdErrorOf_congr_dec unit dec).trans row)] at run
    obtain rfl := Host.Outcome.next.inj run
    simp [dec]
  | none =>
    refine ⟨decoderAfter i a d, bytesOf i a d, fun s t alpha dec run => ?_⟩
    rw [exec_eq_performed ((cmdErrorOf_congr_dec unit dec).trans row), performed_decoder s unit, alpha, dec] at run
    obtain rfl := Host.Outcome.next.inj run
    exact ⟨rfl, rfl⟩

/-! ## The statements -/

/-- Settles O45: what a unit's command does is fixed by its registers and the alphabet, so it is the same in both
states. -/
theorem unitsReadOnlyOwnState : Obligations.UnitsReadOnlyOwnState := by
  intro i s₁ s₂ alpha
  obtain ⟨t₁, run₁⟩ := exec_answers i s₁
  obtain ⟨t₂, run₂⟩ := exec_answers i s₂
  refine ⟨t₁, t₂, run₁, run₂, fun unit enc => ?_, fun unit dec => ?_⟩
  · obtain ⟨e, xs, uniform⟩ := exec_encoder_uniform unit s₂.alpha s₂.enc
    obtain ⟨enc₁, out₁⟩ := uniform s₁ t₁ alpha enc run₁
    obtain ⟨enc₂, out₂⟩ := uniform s₂ t₂ rfl rfl run₂
    exact ⟨enc₁.trans enc₂.symm, xs, out₁, out₂⟩
  · obtain ⟨d, ys, uniform⟩ := exec_decoder_uniform unit s₂.alpha s₂.dec
    obtain ⟨dec₁, out₁⟩ := uniform s₁ t₁ alpha dec run₁
    obtain ⟨dec₂, out₂⟩ := uniform s₂ t₂ rfl rfl run₂
    exact ⟨dec₁.trans dec₂.symm, ys, out₁, out₂⟩

/-- Settles O46: neither command touches what the other reads or writes. -/
theorem encoderAndDecoderCommute : Obligations.EncoderAndDecoderCommute := by
  intro e d s encoder decoder rowE rowD
  have afterE := performed_encoder s encoder
  have afterD := performed_decoder s decoder
  have rowD' : cmdErrorOf d (performed e s) = none :=
    (cmdErrorOf_congr_dec decoder (by rw [afterE]; rfl)).trans rowD
  have rowE' : cmdErrorOf e (performed d s) = none :=
    (cmdErrorOf_congr_enc encoder (by rw [afterD]; rfl)).trans rowE
  have commute : performed e (performed d s) = performed d (performed e s) := by
    rw [performed_encoder (performed d s) encoder, performed_decoder (performed e s) decoder, afterE, afterD]
    rfl
  exact ⟨_, _, _, exec_eq_performed rowE, exec_eq_performed rowD', exec_eq_performed rowD,
    commute ▸ exec_eq_performed rowE'⟩

end Sys2Proof.Machine
end

section
/-! The invariant of the block (10_state.md R22 to R41): what each unit's update must meet to keep it, that every update
a command makes does, and so every step; then the three statements. -/

namespace Sys2Proof.Machine

/-! ## The invariant under one update -/

section
variable {s : State}

theorem BlockInv.withStaging (inv : BlockInv s) {g : Staging} (length : g.len.toNat ≤ 33) :
    BlockInv (s.withStaging g) :=
  { inv with stagedLength := length }

theorem BlockInv.withEnc (inv : BlockInv s) {e : EncoderUnit} (encoder : EncoderInv e) : BlockInv (s.withEnc e) :=
  { inv with encoder := encoder }

theorem BlockInv.withDec (inv : BlockInv s) {d : DecoderUnit} (decoder : DecoderInv s.alpha.order d) :
    BlockInv (s.withDec d) :=
  { inv with decoder := decoder }

theorem BlockInv.withLenOut (inv : BlockInv s) (n : BitVec 32) : BlockInv (s.withLenOut n) := { inv with }

theorem BlockInv.withAlphaErr (inv : BlockInv s) {e : AlphaErr} (fits : alphaErrFits e) : BlockInv (s.withAlphaErr e) :=
  { inv with alphaRecord := fits }

theorem BlockInv.withCmdErr (inv : BlockInv s) {e : CmdErr} (fits : cmdErrFits e) : BlockInv (s.withCmdErr e) :=
  { inv with cmdRecord := fits }

theorem BlockInv.emitEnc (inv : BlockInv s) (xs : List Byte) : BlockInv (s.emitEnc xs) := { inv with }

theorem BlockInv.emitDec (inv : BlockInv s) (xs : List Byte) : BlockInv (s.emitDec xs) := { inv with }

theorem BlockInv.withPort (inv : BlockInv s) (port : List PortInput) : BlockInv (s.withPort port) := { inv with }

/-- Outside a session the decoder's bounds do not depend on the order. -/
theorem DecoderInv.of_closed {o o' : Order} {d : DecoderUnit} (inv : DecoderInv o d) (closed : d.state ≠ .active) :
    DecoderInv o' d :=
  { inv with normal := fun active => absurd active closed }

theorem BlockInv.withAlpha (inv : BlockInv s) {a : AlphabetUnit} (alphabet : AlphabetInv a)
    (closed : s.dec.state ≠ .active) : BlockInv (s.withAlpha a) :=
  { inv with alphabet := alphabet, decoder := inv.decoder.of_closed closed }

theorem BlockInv.raiseCmdError (inv : BlockInv s) {c : CmdCause} {w : Word} (fits : cmdErrFits ⟨c, w⟩) :
    BlockInv (raiseCmdError c w s) := by
  rw [Machine.raiseCmdError]
  split
  · exact inv.withCmdErr fits
  · exact inv

/-! ## The alphabet unit -/

theorem installAlphabet_inv {t : Table 32} {o : Order} {src : AlphaSrc} (legal : LegalAlphabet t)
    (source : sourceFits (installAlphabet t o src)) : AlphabetInv (installAlphabet t o src) :=
  ⟨legal, installAlphabet_inverse legal.distinct o src, source⟩

theorem presetInstalled_inv (inv : BlockInv s) (closed : ¬ sessionOpen s) (p : Preset) :
    BlockInv (presetInstalled p s) := by
  have source : sourceFits (installAlphabet (presetTable p) (presetOrder p) (presetSrc p)) := by
    cases p <;> exact ⟨rfl, rfl⟩
  obtain ⟨-, decoder⟩ := not_or.mp closed
  exact (inv.withAlpha (installAlphabet_inv (presetTable_legal p) source) decoder).withAlphaErr ⟨rfl, rfl⟩

theorem commitStaged_inv (inv : BlockInv s) (closed : ¬ sessionOpen s) : BlockInv (commitStaged s) := by
  have ended := inv.withStaging (g := { s.staging with loading := false }) inv.stagedLength
  obtain ⟨-, decoder⟩ := not_or.mp closed
  cases h : validate s.staging.bytes s.staging.len with
  | none =>
    obtain ⟨-, legal⟩ := validate_none h
    rw [commitStaged_of_ok h]
    exact (ended.withAlpha (installAlphabet_inv (src := .custom) legal trivial) decoder).withAlphaErr ⟨rfl, rfl⟩
  | some e =>
    rw [commitStaged_of_error h]
    exact ended.withAlphaErr (validate_fits h)

/-! ## The encoder -/

theorem encoderInv_started :
    EncoderInv { state := .active, phase := 0, carry := 0, pend := false, icnt := 0, ocnt := 0 } :=
  ⟨fun _ => by decide, fun _ => by decide, fun closed => absurd rfl closed⟩

theorem EncoderUnit.afterByte_inv {e : EncoderUnit} (active : e.state = .active) (o : Order) (d : Byte) :
    EncoderInv (e.afterByte (peel o e.phase e.carry d)) :=
  ⟨fun _ => bne_iff_ne, fun _ => peel_carry_lt o e.phase e.carry d, fun closed => absurd active closed⟩

theorem EncoderUnit.closed_inv (e : EncoderUnit) : EncoderInv e.closed :=
  ⟨nofun, nofun, fun _ => ⟨rfl, rfl⟩⟩

/-! ## The decoder -/

theorem decoderInv_started (o : Order) : DecoderInv o
    { state := .active, acc := 0, nbits := 0, icnt := 0, ocnt := 0, errOff := 0, errByte := 0 } :=
  ⟨by decide, by decide, fun _ _ => by decide, fun _ => rfl, fun _ => ⟨rfl, rfl⟩⟩

theorem accStep_width {o : Order} {d : DecoderUnit} (inv : DecoderInv o d) (active : d.state = .active) (v : Value) :
    (accStep o d.acc d.nbits v).acc.toNat < 2 ^ (accStep o d.acc d.nbits v).nbits.toNat
    ∧ (accStep o d.acc d.nbits v).nbits.toNat ≤ 12
    ∧ (o = .normal → (accStep o d.acc d.nbits v).nbits.toNat ≤ 7) := by
  cases o with
  | normal =>
    obtain ⟨width, seven⟩ := accNormal_width (v := v) inv.width (inv.normal active rfl)
    exact ⟨width, seven.trans (by decide), fun _ => seven⟩
  | inverse =>
    obtain ⟨width, twelve⟩ := accInverse_width (v := v) inv.width inv.most
    exact ⟨width, twelve, nofun⟩

theorem takeSymbol_inv (inv : BlockInv s) (active : s.dec.state = .active) (d : Byte) : BlockInv (takeSymbol d s) := by
  cases h : revLookup s.alpha d with
  | none =>
    rw [takeSymbol_of_invalid h]
    exact inv.withDec ⟨inv.decoder.width, inv.decoder.most, nofun, nofun, fun working => absurd rfl working⟩
  | some v =>
    rw [takeSymbol_of_value h]
    obtain ⟨width, most, normal⟩ := accStep_width inv.decoder active v
    refine (inv.emitDec _).withDec ⟨width, most, fun _ => normal, fun closed => ?_, inv.decoder.record⟩
    simp [active] at closed

theorem closeDecoder_inv (inv : BlockInv s) (active : s.dec.state = .active) (tail : NormalTail) :
    BlockInv (closeDecoder tail s) :=
  (inv.emitDec _).withDec ⟨by simp, by simp, nofun, fun _ => rfl,
    fun _ => inv.decoder.record (by simp [active])⟩

/-! ## The block -/

theorem performed_inv {i : Instr} (inv : BlockInv s) (row : cmdErrorOf i s = none) : BlockInv (performed i s) := by
  cases i with
  | alphaBegin o => exact inv.withStaging (Nat.zero_le 33)
  | alphaByte d => exact inv.withStaging (stageByte_len_le inv.stagedLength)
  | alphaCommit =>
    obtain ⟨-, closed⟩ := cmdErrorOf_alphaCommit_eq_none.mp row
    exact commitStaged_inv inv closed
  | alphaPresetZbase32 => exact presetInstalled_inv inv ((cmdErrorOf_preset_eq_none .zbase32).mp row) .zbase32
  | alphaPresetRfc4648 => exact presetInstalled_inv inv ((cmdErrorOf_preset_eq_none .rfc4648).mp row) .rfc4648
  | alphaPresetBech32 => exact presetInstalled_inv inv ((cmdErrorOf_preset_eq_none .bech32).mp row) .bech32
  | encStart => exact inv.withEnc encoderInv_started
  | encByte d =>
    have active := cmdErrorOf_encFinish_eq_none.mp row
    exact (inv.emitEnc _).withEnc (s.enc.afterByte_inv active s.alpha.order d)
  | encFinish => exact (inv.emitEnc _).withEnc s.enc.closed_inv
  | decStart => exact inv.withDec (decoderInv_started _)
  | decSym d =>
    obtain active | failed := cmdErrorOf_decFinish_eq_none.mp row
    · rw [performed_decSym_of_active d active]
      exact takeSymbol_inv inv active d
    · rwa [performed_decSym_of_failed d failed]
  | decFinish =>
    obtain active | failed := cmdErrorOf_decFinish_eq_none.mp row
    · rw [performed_decFinish_of_active active]
      exact closeDecoder_inv inv active _
    · rwa [performed_decFinish_of_failed failed]
  | lenEnc n => exact inv.withLenOut _
  | lenDec m => exact inv.withLenOut _
  | clrErr => exact inv.withCmdErr rfl

theorem reset_inv : BlockInv State.reset where
  alphabet := installAlphabet_inv (presetTable_legal .zbase32) ⟨rfl, rfl⟩
  stagedLength := by decide
  encoder := ⟨nofun, nofun, fun _ => ⟨rfl, rfl⟩⟩
  decoder := ⟨by decide, by decide, nofun, fun _ => rfl, fun _ => ⟨rfl, rfl⟩⟩
  alphaRecord := ⟨rfl, rfl⟩
  cmdRecord := rfl

/-- A step answers a next state, which meets the invariant where the state before it did. -/
theorem step_inv (inv : BlockInv s) : ∃ t, step s = .next t ∧ BlockInv t := by
  cases waiting : s.port with
  | nil => exact ⟨s, step_nil waiting, inv⟩
  | cons x rest =>
    cases x with
    | reset => exact ⟨_, step_reset waiting, reset_inv.withPort rest⟩
    | command w =>
      obtain ⟨c, fits, run⟩ | ⟨i, -, row, run⟩ := step_command_cases waiting
      · exact ⟨_, run, (inv.withPort rest).raiseCmdError fits⟩
      · exact ⟨_, run, performed_inv (inv.withPort rest) row⟩

theorem runSteps_inv (inv : BlockInv s) (k : Nat) : ∃ t, runSteps k s = .next t ∧ BlockInv t := by
  induction k generalizing s with
  | zero => exact ⟨s, rfl, inv⟩
  | succ k ih =>
    obtain ⟨t, run, next⟩ := step_inv inv
    rw [runSteps_succ_of_step run]
    exact ih next

end

/-! ## The statements -/

/-- Settles O47: a step holds the state, resets it, raises an error its word can raise, or performs a command; each of a
command's updates meets its unit's part of the invariant. -/
theorem stepKeepsBlockInvariant : Obligations.StepKeepsBlockInvariant := by
  intro s t inv run
  obtain ⟨u, run', next⟩ := step_inv inv
  obtain rfl := Host.Outcome.next.inj (run.symm.trans run')
  exact next

/-- Settles O48: ZBASE32 is a legal alphabet and every other element is 0, idle or empty. -/
theorem resetMeetsBlockInvariant : Obligations.ResetMeetsBlockInvariant := reset_inv

/-- Settles O49: the reset state meets the invariant whatever waits on the port, and every step keeps it. -/
theorem everyBoundaryMeetsInvariant : Obligations.EveryBoundaryMeetsInvariant :=
  fun _ => runSteps_inv (reset_inv.withPort _)

end Sys2Proof.Machine
end

section
/-! ENC_BYTE (42_encoder.md R141 to R144): the bits of the sub-case as one number of T bits, whose slices are the rows of
the two tables; then the statement. -/

namespace Sys2Proof.Machine

/-! ## The window of carry and byte -/

/-- The window of the Normal-order sub-case: the carry's K bits above the byte (R145). -/
def normalWindow (p : Fin 5) (c : BitVec 4) (d : Byte) : BitVec (carryBits p + 8) := c.extractLsb' 0 (carryBits p) ++ d

/-- The window of the Inverse-order sub-case: the byte above the carry's K bits (R146). -/
def inverseWindow (p : Fin 5) (c : BitVec 4) (d : Byte) : BitVec (carryBits p + 8) :=
  (c.extractLsb' 0 (carryBits p)).setWidth _ ||| d.setWidth _ <<< carryBits p

theorem normalWindow_toNat (p : Fin 5) (c : BitVec 4) (d : Byte) :
    (normalWindow p c d).toNat = byteWindow .normal p c d := by
  rw [normalWindow, byteWindow, BitVec.toNat_append, BitVec.extractLsb'_toNat, Nat.shiftRight_zero]

theorem inverseWindow_toNat (p : Fin 5) (c : BitVec 4) (d : Byte) :
    (inverseWindow p c d).toNat = byteWindow .inverse p c d := by
  have high : d.toNat <<< carryBits p < 2 ^ (carryBits p + 8) := by
    rw [Nat.shiftLeft_eq, pow_add, mul_comm]
    exact Nat.mul_lt_mul_of_pos_left d.isLt (Nat.two_pow_pos _)
  rw [inverseWindow, byteWindow, BitVec.toNat_or, BitVec.toNat_setWidth_of_le (Nat.le_add_right ..),
    BitVec.extractLsb'_toNat, Nat.shiftRight_zero, BitVec.toNat_shiftLeft,
    BitVec.toNat_setWidth_of_le (Nat.le_add_left ..), Nat.mod_eq_of_lt high]

theorem peel_normal_eq (p : Fin 5) (c : BitVec 4) (d : Byte) : peel .normal p c d =
    ⟨(List.range (symbolCount p)).map fun j => (normalWindow p c d).extractLsb' (availableBits p - 5 - 5 * j) 5,
      ((normalWindow p c d).extractLsb' 0 (carryOutBits p)).setWidth 4⟩ := by
  have carry : ((normalWindow p c d).extractLsb' 0 (carryOutBits p)).setWidth 4
      = BitVec.ofNat 4 (byteWindow .normal p c d % 2 ^ carryOutBits p) := by
    rw [← BitVec.ofNat_toNat, BitVec.extractLsb'_toNat, Nat.shiftRight_zero, normalWindow_toNat]
  rw [carry]
  simp only [BitVec.extractLsb', normalWindow_toNat]
  rfl

theorem peel_inverse_eq (p : Fin 5) (c : BitVec 4) (d : Byte) : peel .inverse p c d =
    ⟨(List.range (symbolCount p)).map fun j => (inverseWindow p c d).extractLsb' (5 * j) 5,
      ((inverseWindow p c d).extractLsb' (5 * symbolCount p) (carryOutBits p)).setWidth 4⟩ := by
  have carry : ((inverseWindow p c d).extractLsb' (5 * symbolCount p) (carryOutBits p)).setWidth 4
      = BitVec.ofNat 4 (byteWindow .inverse p c d >>> (5 * symbolCount p)) := by
    have fits : byteWindow .inverse p c d >>> (5 * symbolCount p) < 2 ^ carryOutBits p := by
      have window : byteWindow .inverse p c d < 2 ^ availableBits p :=
        inverseWindow_toNat p c d ▸ (inverseWindow p c d).isLt
      rwa [Nat.shiftRight_eq_div_pow, Nat.div_lt_iff_lt_mul (Nat.two_pow_pos _), ← pow_add, add_comm,
        ← availableBits_eq]
    rw [← BitVec.ofNat_toNat, BitVec.extractLsb'_toNat, inverseWindow_toNat, Nat.mod_eq_of_lt fits]
  rw [carry]
  simp only [BitVec.extractLsb', inverseWindow_toNat]
  rfl

theorem normalWindow_zero (c : BitVec 4) (d : Byte) : normalWindow 0 c d = d := by
  apply BitVec.eq_of_toNat_eq
  rw [normalWindow_toNat]
  simp [byteWindow, carryBits, Nat.mod_one]

theorem inverseWindow_zero (c : BitVec 4) (d : Byte) : inverseWindow 0 c d = d := by
  apply BitVec.eq_of_toNat_eq
  rw [inverseWindow_toNat]
  simp [byteWindow, carryBits, Nat.mod_one]

/-! ## The rows -/

theorem setWidth_of_empty (x : BitVec 0) : x.setWidth 4 = 0 := by
  rw [BitVec.of_length_zero (x := x)]
  rfl

/-- The sub-case of R145 is the row of R143 at each phase. -/
theorem peel_eq_normalRow (p : Fin 5) (c : BitVec 4) (d : Byte) :
    peel .normal p c d = ⟨(normalRow p c d).1, (normalRow p c d).2⟩ := by
  rw [peel_normal_eq]
  match p with
  | 0 => rw [normalWindow_zero]; rfl
  | 1 => rfl
  | 2 => rfl
  | 3 => rfl
  | 4 => exact congrArg (Peeled.mk _) (setWidth_of_empty _)

/-- The sub-case of R146 is the row of R144 at each phase. -/
theorem peel_eq_inverseRow (p : Fin 5) (c : BitVec 4) (d : Byte) :
    peel .inverse p c d = ⟨(inverseRow p c d).1, (inverseRow p c d).2⟩ := by
  rw [peel_inverse_eq]
  match p with
  | 0 => rw [inverseWindow_zero]; rfl
  | 1 => rfl
  | 2 => rfl
  | 3 => rfl
  | 4 => exact congrArg (Peeled.mk _) (setWidth_of_empty _)

theorem peel_eq_subcaseRow (o : Order) (p : Fin 5) (c : BitVec 4) (d : Byte) :
    peel o p c d = ⟨(subcaseRow o p c d).1, (subcaseRow o p c d).2⟩ := by
  cases o with
  | normal => exact peel_eq_normalRow p c d
  | inverse => exact peel_eq_inverseRow p c d

/-! ## What the command does -/

theorem encode_encByte (d : Byte) : encode (.encByte d) = 0x60000000 ||| d.setWidth 32 :=
  wordOfRaw_byte 0x6 d

theorem exec_encByte_of_not_active {s : State} (d : Byte) (h : s.enc.state ≠ .active) :
    exec (.encByte d) s = .next (raiseCmdError .seqEnc (0x60000000 ||| d.setWidth 32) s) := by
  rw [← encode_encByte]
  exact if_neg h

theorem takeByte_eq_row (d : Byte) (s : State) : takeByte d s =
    (s.emitEnc ((subcaseRow s.alpha.order s.enc.phase s.enc.carry d).1.map (fwdLookup s.alpha))).withEnc
      (s.enc.afterByte ⟨(subcaseRow s.alpha.order s.enc.phase s.enc.carry d).1,
        (subcaseRow s.alpha.order s.enc.phase s.enc.carry d).2⟩) := by
  rw [takeByte, peel_eq_subcaseRow]

theorem subcaseRow_length (o : Order) (p : Fin 5) (c : BitVec 4) (d : Byte) :
    (subcaseRow o p c d).1.length = symbolCount p := by
  rw [← peel_values_length o p c d, peel_eq_subcaseRow]

/-! ## The statement -/

/-- Settles O22: the sub-case's window is the row's x, and each of its groups the row's slice. -/
theorem encByteTakesOneByte : Obligations.EncByteTakesOneByte := by
  refine fun d s => ⟨fun closed => ?refused, fun active => ?taken⟩
  case refused =>
    exact ⟨_, exec_encByte_of_not_active d closed, raiseCmdError_cmdErr .., raiseCmdError_frame _ _ s⟩
  case taken =>
    have phase : (nextPhase s.enc.phase).val = (s.enc.phase.val + 1) % 5 := Fin.val_add ..
    refine ⟨_, exec_encByte_of_active d active, ?_⟩
    rw [takeByte_eq_row]
    refine ⟨rfl, rfl, phase, ?pend, BitVec.toNat_add .., ?ocnt, active, emitEnc_withEnc_frame s _ _⟩
    case pend =>
      rw [← phase]
      exact bne_iff_ne.trans (not_congr Fin.ext_iff)
    case ocnt =>
      have count : (carryBits s.enc.phase + 8) / 5 = symbolCount s.enc.phase := rfl
      simp [EncoderUnit.afterByte, subcaseRow_length, count]

end Sys2Proof.Machine
end

section
/-! A commit that succeeds (40_alphabet.md R105) and the Normal-order tail under each parameter (43_decoder.md R181): the
two statements. -/

namespace Sys2Proof.Machine

/-- Settles O15: a legal string passes validation, and its bytes are distinct, so the tables built from it are
inverse. -/
theorem commitOfValidStringInstalls : Obligations.CommitOfValidStringInstalls := by
  intro s loading closed length legal
  have run := exec_alphaCommit_of_loading loading closed
  rw [commitStaged_of_ok (length ▸ validate_of_legal legal)] at run
  exact ⟨_, run, rfl, installAlphabet_inverse legal.distinct s.staging.order .custom, rfl, rfl, rfl, rfl,
    by simp [keepsAllBut_iff]⟩

theorem closeDecoder_of_none {s : State} {tail : NormalTail} (h : tailByte tail s.alpha.order s.dec = none) :
    (closeDecoder tail s).decOut = s.decOut ∧ (closeDecoder tail s).dec.ocnt = s.dec.ocnt := by
  simp [closeDecoder, h, countEmitted]

theorem closeDecoder_of_some {s : State} {tail : NormalTail} {b : Byte}
    (h : tailByte tail s.alpha.order s.dec = some b) :
    (closeDecoder tail s).decOut = s.decOut ++ [b] ∧ (closeDecoder tail s).dec.ocnt = s.dec.ocnt + 1 := by
  simp [closeDecoder, h, countEmitted]

/-- Settles O33: DISCARD never gives a tail byte in Normal order, and EMIT_IF_NONZERO gives one unless the count or the
bits are 0. -/
theorem normalTailUnderEachParameter : Obligations.NormalTailUnderEachParameter := by
  intro s active normal
  refine ⟨rfl, ⟨_, decFinishWith_of_active .discard active, closeDecoder_of_none (by rw [normal]; rfl)⟩,
    _, decFinishWith_of_active .emitIfNonzero active, fun ⟨pending, nonzero⟩ => ?_, fun empty => ?_⟩
  · exact closeDecoder_of_some (by rw [normal]; exact if_neg (not_or.mpr ⟨pending, nonzero⟩))
  · exact closeDecoder_of_none (by rw [normal]; exact if_pos empty)

end Sys2Proof.Machine
end

section
/-! The length helpers against the sessions (41_length.md R133): the counts of a session against the two lengths, and a
decoder session of any bytes, which ends in DONE or at its first byte without a value; then the statement. -/

namespace Sys2Proof.Machine

/-! ## The counts against the lengths -/

theorem encodedCount_lt_encodedLength (n : Nat) : encodedCount n < encodedLength n := by
  rw [encodedLength_eq_encodedCount_add]
  split <;> omega

theorem decodedCount_le_decodedLengthUpperBound (o : Order) (m : Nat) :
    decodedCount o m ≤ decodedLengthUpperBound m := by
  cases o <;> rw [decodedCount, decodedLengthUpperBound] <;> omega

/-- LEN_DEC is not monotone, but it still bounds what a session that failed earlier has emitted. -/
theorem settledBytes_le_decodedLengthUpperBound (o : Order) {m n : Nat} (h : m ≤ n) :
    settledBytes o m ≤ decodedLengthUpperBound n := by
  cases o <;> rw [settledBytes, decodedLengthUpperBound] <;> omega

theorem exec_lenEnc_ofNat {n : Nat} (h : n < 2 ^ 24) (s : State) :
    ∃ u, exec (.lenEnc (BitVec.ofNat 24 n)) s = .next u ∧ u.lenOut.toNat = encodedLength n := by
  have operand : (BitVec.ofNat 24 n).toNat = n := (BitVec.toNat_ofNat ..).trans (Nat.mod_eq_of_lt h)
  have held := withLenOut_ofNat_toNat s (encodedLength_lt (BitVec.ofNat 24 n))
  exact ⟨_, exec_lenEnc .., by rw [held, operand]⟩

theorem exec_lenDec_ofNat {m : Nat} (h : m < 2 ^ 24) (s : State) :
    ∃ u, exec (.lenDec (BitVec.ofNat 24 m)) s = .next u ∧ u.lenOut.toNat = decodedLengthUpperBound m := by
  have operand : (BitVec.ofNat 24 m).toNat = m := (BitVec.toNat_ofNat ..).trans (Nat.mod_eq_of_lt h)
  have held := withLenOut_ofNat_toNat s (decodedLengthUpperBound_lt (BitVec.ofNat 24 m))
  exact ⟨_, exec_lenDec .., by rw [held, operand]⟩

/-! ## A decoder session of any bytes -/

/-- A byte REV does not give INVALID for has its entry's low 5 bits as its value (log entry 8). -/
theorem revLookup_of_ne_none {a : AlphabetUnit} {d : Byte} (h : revLookup a d ≠ none) :
    revLookup a d = some (symbolValue a d) := by
  rw [revLookup] at h ⊢
  split
  · next invalid => exact absurd (if_pos invalid) h
  · rfl

theorem carries_of_lookup {a : AlphabetUnit} {symbols : List Byte} (valid : ∀ d ∈ symbols, revLookup a d ≠ none) :
    Carries a (valueBit a.order (symbols.map (symbolValue a))) symbols := by
  intro j hj
  rw [revLookup_of_ne_none (valid _ (List.getElem_mem hj)), groupAt_valueBit _ _ (by simpa using hj), List.getElem_map]

/-- A string of bytes has only bytes with a value, or a first one without. -/
theorem split_at_first_invalid (a : AlphabetUnit) (symbols : List Byte) :
    (∀ d ∈ symbols, revLookup a d ≠ none)
    ∨ ∃ before d after, symbols = before ++ d :: after
      ∧ (∀ x ∈ before, revLookup a x ≠ none) ∧ revLookup a d = none := by
  cases found : symbols.find? fun d => (revLookup a d).isNone with
  | none => exact .inl (by simpa using List.find?_eq_none.mp found)
  | some d =>
    obtain ⟨invalid, before, after, split, valid⟩ := List.find?_eq_some_iff_append.mp found
    exact .inr ⟨before, d, after, split, by simpa [← Option.isSome_iff_ne_none] using valid, by simpa using invalid⟩

theorem runSteps_decodeSession_of_invalid {s : State} {before after : List Byte} {d : Byte} {rest : List PortInput}
    (valid : ∀ x ∈ before, revLookup s.alpha x ≠ none) (invalid : revLookup s.alpha d = none)
    (port : s.port = decodeSession (before ++ d :: after) ++ rest) :
    ∃ t bytes, runSteps ((before ++ d :: after).length + 2) s = .next t ∧ t.decOut = s.decOut ++ bytes
      ∧ bytes.length = settledBytes s.alpha.order before.length := by
  have split : s.port = decodeSymbols before
      ++ sends (.decSym d) :: ((after.map fun x => sends (.decSym x)) ++ sends .decFinish :: rest) := by
    rw [port]
    simp [decodeSession, decodeSymbols]
  have run := calc runSteps (before.length + 1 + (after.length + 2)) s
    _ = _ := runSteps_add (runSteps_decodeSymbols (carries_of_lookup valid) split)
    _ = _ := runSteps_succ_of_step (step_decSym_of_invalid invalid)
    _ = _ := runSteps_of_failed after rfl rfl
  have steps : (before ++ d :: after).length + 2 = before.length + 1 + (after.length + 2) := by
    rw [List.length_append, List.length_cons]
    omega
  rw [steps]
  exact ⟨_, _, run, rfl, streamBytes_length ..⟩

/-- A decoder session of any bytes, one that fails included, emits no more than LEN_DEC of its length. -/
theorem runSteps_decodeSession_bounded {s : State} {symbols : List Byte} {rest : List PortInput}
    (port : s.port = decodeSession symbols ++ rest) :
    ∃ t bytes, runSteps (symbols.length + 2) s = .next t ∧ t.decOut = s.decOut ++ bytes
      ∧ bytes.length ≤ decodedLengthUpperBound symbols.length := by
  obtain valid | ⟨before, d, after, rfl, valid, invalid⟩ := split_at_first_invalid s.alpha symbols
  · have ends (i : Nat) (hi : 5 * symbols.length ≤ i) :
        valueBit s.alpha.order (symbols.map (symbolValue s.alpha)) i = false :=
      valueBit_past _ _ (by rwa [List.length_map])
    exact ⟨_, _, runSteps_decodeSession (carries_of_lookup valid) ends port, rfl,
      (streamBytes_length ..).trans_le (decodedCount_le_decodedLengthUpperBound ..)⟩
  · obtain ⟨t, bytes, run, out, length⟩ := runSteps_decodeSession_of_invalid valid invalid port
    exact ⟨t, bytes, run, out, length.trans_le (settledBytes_le_decodedLengthUpperBound _ (by simp))⟩

/-! ## The statement -/

/-- Settles O37: the encoder emits fewer symbols than LEN_ENC by its count; a decoder session emits the bytes of its whole
stream, or those settled before the byte that fails it. -/
theorem lengthHelpersBoundSessions : Obligations.LengthHelpersBoundSessions := by
  refine ⟨fun s bytes short port => ?encoder, fun s symbols short port => ?decoder⟩
  case encoder =>
    have run := runSteps_encodeSession (rest := []) (port.trans (List.append_nil _).symm)
    obtain ⟨u, lenEnc, length⟩ := exec_lenEnc_ofNat short (afterSession s bytes [])
    have out : (afterSession s bytes []).encOut = s.encOut ++ encodedSymbols s.alpha bytes := rfl
    refine ⟨_, u, run, lenEnc, ?_⟩
    rw [out, List.length_append, encodedSymbols_length, length]
    exact Nat.add_lt_add_left (encodedCount_lt_encodedLength _) _
  case decoder =>
    obtain ⟨t, bytes, run, out, bound⟩ := runSteps_decodeSession_bounded (rest := [])
      (port.trans (List.append_nil _).symm)
    obtain ⟨u, lenDec, length⟩ := exec_lenDec_ofNat short t
    refine ⟨t, u, run, lenDec, ?_⟩
    rw [out, List.length_append, length]
    exact Nat.add_le_add_left bound _

end Sys2Proof.Machine
end
